-- ==== Sys2Proof/Word.lean ====
section
/-! DEFINITION. The data the core knows (00_scope.md R10, R11; 10_state.md R20): bytes, 32-bit words, addresses,
Blocks, capability word sets, and the 48-byte descriptor. Types only; nothing here computes. An address (R29, R40) is a plain
`Nat`: that it is below `2^ADDR_BITS` is checked by `wellFormed` for an operand and by `CheckAccess` for a region, and
no address computation of the core wraps (R48). -/

namespace Sys2Proof

/-- A byte: an unsigned integer below 256 whose bits are numbered from the least significant end (R10). -/
abbrev Byte := BitVec 8

/-- A `u32`: the by-value operands of `queryCPUID` and the capability words (R10, R20, R72). -/
abbrev Word := BitVec 32

/-- A Block: exactly 16 bytes with no structure imposed, byte 0 the one at the lowest address (R11, R20, R43). -/
abbrev Block := Vector Byte 16

/-- The binary form of an invocation: exactly 48 bytes `D[0]` to `D[47]` (R73, R79). -/
abbrev Descriptor := Vector Byte 48

/-- A caller thread. The core gives threads no identifier (R164); the model numbers them to say which one issues. -/
abbrev ThreadId := Nat

/-- The capability word set of one (leaf, subleaf) pair, in the order the operation returns it (R20, R90). -/
structure CapWords where
  eax : Word
  ebx : Word
  ecx : Word
  edx : Word
  deriving DecidableEq, Repr, Inhabited

end Sys2Proof
end

