-- ==== Sys2Proof/Config.lean ====
section
/-! DEFINITION. What is fixed for the life of the hardware (00_scope.md R5, 10_state.md R28), and the free values:
constants without a body, about which nothing can be proved but that they are what they are. -/

namespace Sys2Proof

/-- The parameters of R5 whose values are fixed, by the source or by the spec. -/
structure FixedParameters where
  /-- `BLOCK_BYTES`. -/
  blockBytes : Nat
  /-- `KEY_BLOCKS`. -/
  keyBlocks : Nat
  /-- `KEY_BYTES`. -/
  keyBytes : Nat
  /-- `ROUNDS_AES4`. -/
  roundsAes4 : Nat
  /-- `ROUNDS_AES10`. -/
  roundsAes10 : Nat
  /-- `CAP_WORD_BITS`. -/
  capWordBits : Nat
  /-- `ADDR_BITS` (R40; log entry 2). -/
  addrBits : Nat
  /-- `NUM_AGENTS`: `none` is unbounded. -/
  numAgents : Option Nat
  deriving DecidableEq, Repr

/-- Their values (R5). -/
def Config.fixed : FixedParameters :=
  { blockBytes := 16
    keyBlocks := 3
    keyBytes := 3 * 16
    roundsAes4 := 4
    roundsAes10 := 10
    capWordBits := 32
    addrBits := 64
    numAgents := none }

/-- One row of `CPUID_TABLE` that a configuration fixes (R91). -/
structure CpuidEntry where
  leaf : Word
  subleaf : Word
  words : CapWords
  deriving DecidableEq, Repr

/-- A run of addresses with the rights an invocation has there: the plain-data form of the predicates `Readable` and
`Writable` (R40). A byte has a right when some area that holds it grants the right. -/
structure Area where
  base : Nat
  size : Nat
  readable : Bool
  writable : Bool
  deriving DecidableEq, Repr

/-- The open parameters of the hardware (R5, R28): one record, fixed for the life of a machine. No operation and no reset
changes them; claims quantify over all of them (log entry 1). -/
structure Config where
  /-- `HAS_AES`: the AES-round instruction executes (R28, R151). -/
  hasAes : Bool
  /-- `HAS_SIMD`: the 128-bit load, store and exclusive-or execute (R28, R152). -/
  hasSimd : Bool
  /-- `CPUID_TABLE` at the pairs a configuration lists (R91). -/
  cpuid : List CpuidEntry
  /-- `CPUID_TABLE` at every other pair, where a configuration fixes it; else `Config.cpuidElse` answers (R91). -/
  cpuidRest : Option CapWords
  /-- Where an invocation may read and write (R40). -/
  areas : List Area
  deriving DecidableEq, Repr, Inhabited

/-- FREE VALUE (R91, U6, U7; log entry 3): the capability words of a pair that the configuration does not fix. A
function of the pair, so it is stable. -/
opaque Config.cpuidElse : Word → Word → CapWords

/-- FREE VALUE (R182, U16; log entry 4): the byte at an address nothing has written. A function of the address, so
reading twice gives the same byte (R66). -/
opaque Config.unwritten : Nat → Byte

/-- FREE VALUE (R13 `draw`, R52, R53, R183; log entry 5): the sixteen bytes of the n-th draw. -/
opaque Config.draw : Nat → Block

/-- FREE VALUE (R24; log entry 6): what a 128-bit transient register that holds no value would read as. No operation
reads one. -/
opaque Config.unheldBlock : Block

/-- FREE VALUE (R24; log entry 6): the same for a 32-bit transient register. -/
opaque Config.unheldWord : Word

/-- FREE VALUE (R5, R28; log entry 1): the open parameters of the machine that is launched. Nothing fixes one of them, so
a claim about the launch state holds for every value of all of them. -/
opaque Config.platform : Config

end Sys2Proof
end

