-- ==== Sys2Proof/Syntax.lean ====
section
/-! DEFINITION. The whole instruction set: one constructor per row of the opcode table, operands in the order of
30_encoding.md R70. -/

namespace Sys2Proof

/-- The six operations (R70) with their operands (R72): words by value, addresses of 16-byte regions, and the address
of the 48 bytes of key material. -/
inductive Instr where
  /-- `queryCPUID(leaf, subleaf)` (R90). -/
  | queryCPUID (leaf subleaf : Word)
  /-- `xor2(a, b, dst)` (R101). -/
  | xor2 (a b dst : Nat)
  /-- `xor3(a, b, c, dst)` (R102). -/
  | xor3 (a b c dst : Nat)
  /-- `xor4(a, b, c, d, dst)` (R103). -/
  | xor4 (a b c d dst : Nat)
  /-- `aes4(state, keyMaterial)` (R127). -/
  | aes4 (state keyMaterial : Nat)
  /-- `aes10(state, keyMaterial)` (R128). -/
  | aes10 (state keyMaterial : Nat)
  deriving DecidableEq, Repr

/-- Why a descriptor is no invocation (R78, R82 `Illegal`). -/
inductive Reject where
  /-- The opcode byte selects no operation. -/
  | reservedOpcode (op : Byte)
  deriving DecidableEq, Repr

end Sys2Proof
end

