-- ==== Sys2Proof/WellFormed.lean ====
section
/-! DEFINITION. Which terms of `Instr` are invocations: every address operand is an unsigned integer of `ADDR_BITS`
bits (R29, R48, R76). Words are 32 bits by their type. -/

namespace Sys2Proof

/-- The number is an address (R40). -/
def addrInRange (a : Nat) : Bool := decide (a < 2 ^ Config.fixed.addrBits)

/-- Every address operand is in range. -/
def wellFormed : Instr → Bool
  | .queryCPUID _ _ => true
  | .xor2 a b dst => addrInRange a && addrInRange b && addrInRange dst
  | .xor3 a b c dst => addrInRange a && addrInRange b && addrInRange c && addrInRange dst
  | .xor4 a b c d dst =>
    addrInRange a && addrInRange b && addrInRange c && addrInRange d && addrInRange dst
  | .aes4 state keyMaterial => addrInRange state && addrInRange keyMaterial
  | .aes10 state keyMaterial => addrInRange state && addrInRange keyMaterial

end Sys2Proof
end

