-- ==== Sys2Proof/Decode.lean ====
section
/-! DEFINITION. The decoder (30_encoding.md R73 to R82), total on any 48 bytes, and after it the encoder, written from
the same tables. -/

namespace Sys2Proof

/-- The number whose bytes are given, least significant first (R73). -/
def littleEndian : List Byte → Nat
  | [] => 0
  | b :: bs => b.toNat + 256 * littleEndian bs

/-- The 64-bit field `argk`: bytes `D[8 + 8k]` to `D[15 + 8k]`, least significant first (R73). -/
def slot (d : Descriptor) (k : Fin 5) : Nat :=
  littleEndian (List.ofFn fun j : Fin 8 => d[8 + 8 * k.val + j.val]'(by omega))

/-- A word operand: the low 32 bits of its field (R76). -/
def wordSlot (d : Descriptor) (k : Fin 5) : Word := BitVec.ofNat 32 (slot d k)

/-- The decoder of R82: it reads `D[0]` and the fields R75 assigns to the operation, and nothing else (R77). -/
def decode (d : Descriptor) : Except Reject Instr :=
  match (d[0]).toNat with
  | 1 => .ok (.queryCPUID (wordSlot d 0) (wordSlot d 1))
  | 2 => .ok (.xor2 (slot d 0) (slot d 1) (slot d 2))
  | 3 => .ok (.xor3 (slot d 0) (slot d 1) (slot d 2) (slot d 3))
  | 4 => .ok (.xor4 (slot d 0) (slot d 1) (slot d 2) (slot d 3) (slot d 4))
  | 5 => .ok (.aes4 (slot d 0) (slot d 1))
  | 6 => .ok (.aes10 (slot d 0) (slot d 1))
  | _ => .error (.reservedOpcode d[0])

/-- The opcode byte of each operation (R74). -/
def opcode : Instr → Byte
  | .queryCPUID _ _ => 0x01
  | .xor2 _ _ _ => 0x02
  | .xor3 _ _ _ _ => 0x03
  | .xor4 _ _ _ _ _ => 0x04
  | .aes4 _ _ => 0x05
  | .aes10 _ _ => 0x06

/-- The operand values in slot order (R75). -/
def operands : Instr → List Nat
  | .queryCPUID leaf subleaf => [leaf.toNat, subleaf.toNat]
  | .xor2 a b dst => [a, b, dst]
  | .xor3 a b c dst => [a, b, c, dst]
  | .xor4 a b c d dst => [a, b, c, d, dst]
  | .aes4 state keyMaterial => [state, keyMaterial]
  | .aes10 state keyMaterial => [state, keyMaterial]

/-- Byte `j` of a number, byte 0 the least significant (R73). -/
def byteAt (v j : Nat) : Byte := BitVec.ofNat 8 (v / 256 ^ j)

/-- The encoder (R73, R75, R77): opcode, zeros in the reserved bytes, the operands in their slots, and zeros in the
unused slots and in the high half of a word's slot. -/
def encode (i : Instr) : Descriptor :=
  Vector.ofFn fun k : Fin 48 =>
    if k.val = 0 then opcode i
    else if k.val < 8 then 0
    else byteAt ((operands i).getD ((k.val - 8) / 8) 0) ((k.val - 8) % 8)

/-- The descriptor whose bytes, taken together least significant first, are the given number: bit 0 of the number is
bit 0 of `D[0]`. -/
def descriptorOfNat (v : Nat) : Descriptor := Vector.ofFn fun k : Fin 48 => byteAt v k.val

/-- The descriptor of an opcode-table row: its `nbits` bits, and zeros in every byte above them. -/
def tableDescriptor (nbits w : Nat) : Descriptor := descriptorOfNat (w % 2 ^ nbits)

/-- What the decoder reads from an opcode-table row's bits. -/
def decodeTableWord (nbits w : Nat) : Option Instr :=
  match decode (tableDescriptor nbits w) with
  | .ok i => some i
  | .error _ => none

end Sys2Proof
end

