-- ==== Sys2Proof/Machine/State.lean ====
section
/-! DEFINITION. The machine's state as plain data (10_state.md R22, R23, R29, R31), the caller's inputs, and the
reasons a step can stop. -/

namespace Sys2Proof.Machine

/-- The caller's memory (R29, R40): the bytes something has written, addresses strictly rising. An address that is not
listed holds no value anything put there; what an invocation reads there is the free value `Config.unwritten`
(R182; log entry 4). -/
abbrev Memory := List Host.Cell

/-- The transient registers of one invocation (R23). `none` is the spec's own "holds no value" (R24). -/
structure Regs where
  x0 : Option Block
  x1 : Option Block
  x2 : Option Block
  x3 : Option Block
  x4 : Option Block
  eax : Option Word
  ebx : Option Word
  ecx : Option Word
  edx : Option Word
  deriving DecidableEq, Repr

/-- The registers of an invocation that has just started: none holds a value (R24). -/
def Regs.empty : Regs :=
  { x0 := none, x1 := none, x2 := none, x3 := none, x4 := none
    eax := none, ebx := none, ecx := none, edx := none }

/-- An invocation in flight (R7, R22) with its own registers (R24, R164), loaded by the operation's reading stage. -/
structure InFlight where
  thread : ThreadId
  instr : Instr
  regs : Regs
  deriving DecidableEq, Repr

/-- The fault causes of R150. -/
inductive Cause where
  /-- Code 1: a descriptor with a reserved opcode was issued (R153). -/
  | illegalCommand
  /-- Code 2: the instruction extension the operation needs is absent (R151, R152). -/
  | illegalInstruction
  /-- Code 3: a region is not accessible or wraps (R154). -/
  | memoryFault
  deriving DecidableEq, Repr

/-- The information recorded with a cause (R150). -/
inductive Info where
  /-- The opcode byte: causes 1 and 2. -/
  | op (byte : Byte)
  /-- The base address of the first failing region: cause 3. -/
  | base (addr : Nat)
  deriving DecidableEq, Repr

/-- What was issued when a fault arose: an operation, or a descriptor that is none (R153). -/
inductive Issued where
  | invocation (i : Instr)
  | descriptor (d : Descriptor)
  deriving DecidableEq, Repr

/-- One entry of the fault record: the triple of R31, and the thread that issued it (log entry 11). -/
structure FaultEntry where
  thread : ThreadId
  issued : Issued
  cause : Cause
  info : Info
  deriving DecidableEq, Repr

/-- How an invocation that completes ended (R8). -/
inductive Ending where
  /-- `Done`, returning nothing: the five memory operations. -/
  | done
  /-- `Done`, returning four words: `queryCPUID`. -/
  | returned (words : CapWords)
  /-- `Undefined`: the aliasing discipline was broken (R52, R53). -/
  | undefined
  deriving DecidableEq, Repr

/-- An invocation that completed, with what it handed back to its caller. -/
structure Ended where
  thread : ThreadId
  instr : Instr
  ending : Ending
  deriving DecidableEq, Repr

/-- What the outside world can do to the core, one at a time (R7, R58, R59, R63, R180, R183; log entry 7). -/
inductive Input where
  /-- A thread issues a descriptor, and the invocation runs to its end as one atomic step. -/
  | call (t : ThreadId) (d : Descriptor)
  /-- A thread issues a descriptor, and the invocation is left in flight. -/
  | start (t : ThreadId) (d : Descriptor)
  /-- The thread's invocation in flight runs to its end. -/
  | finish (t : ThreadId)
  /-- The caller reads a run of its own memory. -/
  | callerRead (a : Nat) (n : Nat)
  /-- The caller writes bytes of its own memory. -/
  | callerWrite (a : Nat) (bytes : List Byte)
  /-- The core is reset. -/
  | reset
  deriving DecidableEq, Repr

/-- The whole state of the machine. -/
structure State where
  /-- The open parameters of this machine: configuration, not hardware state. Every claim about a state is a claim about
  all of them, and no step changes them (R5, R28; log entry 1). -/
  cfg : Config
  /-- The caller's memory (R29). -/
  mem : Memory
  /-- The invocations in flight (R22). -/
  active : List InFlight
  /-- The fault record (R31), newest first; a thread with an entry issues nothing further (R159). -/
  faults : List FaultEntry
  /-- The invocations that completed, newest first, with what they returned (R8; log entry 8). -/
  ended : List Ended
  /-- The thread whose invocation the step in progress runs (log entry 8). -/
  thread : ThreadId
  /-- How many values have been drawn (R13 `draw`; log entry 5). -/
  draws : Nat
  /-- What the outside world does next, in order (log entry 7). -/
  inputs : List Input
  deriving DecidableEq, Repr

/-- Why the machine stops. -/
inductive Fault where
  /-- Raised by the caller's own `callerRead` or `callerWrite` of a run that passes the top of the address space, where
  no byte exists (R40). SAFE: no claim about what follows can be proved. -/
  | callerOutsideAddressSpace
  deriving DecidableEq, Repr

/-- Why an input has no meaning. -/
inductive Refusal where
  /-- Raised by an arm of `exec` whose instruction has no meaning yet. SAFE. -/
  | notModelled (mnemonic : String)
  /-- Raised when an invocation or a caller access conflicts with an invocation in flight, so that `NoConflict` fails
  (R59, R60). SAFE: R60 gives the execution no meaning. -/
  | conflict
  /-- Raised when a thread issues while its own invocation is in flight, which R58 says does not happen. SAFE. -/
  | threadBusy
  /-- Raised by `finish` of a thread with nothing in flight: there is no such event. SAFE. -/
  | nothingInFlight
  deriving DecidableEq, Repr

/-- The machine at launch and after a reset (R32, R180): memory untouched, nothing in flight, the fault record empty.
The open parameters are those of the platform, which nothing fixes (R5; log entry 1); the model's own fields are the log's
(entries 5, 7, 8). -/
def State.reset : State :=
  { cfg := Config.platform
    mem := []
    active := []
    faults := []
    ended := []
    thread := 0
    draws := 0
    inputs := [] }

end Sys2Proof.Machine
end

