-- ==== Sys2Proof/Machine/Ops.lean ====
section
/-! DEFINITION. The operations over memory, transient registers and the bookkeeping of the state: reading and writing
memory (20_memory.md R40 to R44), Block exclusive or (00_scope.md R12), ending an invocation (R8), and taking a fault
(60_exceptions.md R159). There is no return from a fault (R160). -/

namespace Sys2Proof.Machine

/-! ### Memory -/

/-- The byte something wrote at an address, if anything did. -/
def Memory.lookup : Memory → Nat → Option Byte
  | [], _ => none
  | (k, v) :: m, a => if k = a then some v else Memory.lookup m a

/-- `Mem[a]`: what a read of one byte gives (R40, R66). A byte nothing has written is the free value (R182). -/
def Memory.byte (m : Memory) (a : Nat) : Byte :=
  match Memory.lookup m a with
  | some v => v
  | none => Config.unwritten a

/-- `Mem[a] <- v`, keeping the addresses in rising order. -/
def Memory.set : Memory → Nat → Byte → Memory
  | [], a, v => [(a, v)]
  | (k, w) :: m, a, v =>
    if a < k then (a, v) :: (k, w) :: m
    else if a = k then (a, v) :: m
    else (k, w) :: Memory.set m a v

/-- A run of bytes stored from an address upwards. -/
def Memory.setBytes : Memory → Nat → List Byte → Memory
  | m, _, [] => m
  | m, a, v :: vs => Memory.setBytes (Memory.set m a v) (a + 1) vs

/-- `MemRead(a, 16)` as a Block: byte `i` is the byte at `a + i` (R41, R43). -/
def Memory.readBlock (m : Memory) (a : Nat) : Block :=
  Vector.ofFn fun i : Fin 16 => Memory.byte m (a + i.val)

/-- The bytes of a Block, byte 0 first (R11). -/
def blockList (b : Block) : List Byte := List.ofFn fun i : Fin 16 => b[i.val]

/-- `MemWrite(a, 16, b)`: sixteen bytes and no others (R42, R43). -/
def Memory.writeBlock (m : Memory) (a : Nat) (b : Block) : Memory := Memory.setBytes m a (blockList b)

/-- Memory's one canonical form: the listed addresses strictly rise, and all lie in the address space (R40). Unlisted
addresses hold no value, so no entry equals one (log entry 4). -/
abbrev Memory.wf (m : Memory) : Prop :=
  m.Pairwise (fun x y => x.1 < y.1) ∧ ∀ c ∈ m, c.1 < 2 ^ Config.fixed.addrBits

/-! ### Blocks -/

/-- `A ^ B` on Blocks: byte by byte, nothing crosses (R12, R104). -/
def xorBlock (a b : Block) : Block := Vector.ofFn fun i : Fin 16 => a[i.val] ^^^ b[i.val]

/-- `ZERO`, the Block `0x00×16` (R11), a constant inside the core (R55). -/
def zeroBlock : Block := Vector.ofFn fun _ => 0

/-! ### Transient registers -/

/-- The 128-bit transient registers (R23). -/
inductive XName where
  | x0 | x1 | x2 | x3 | x4
  deriving DecidableEq, Repr

/-- The 32-bit transient registers (R23). -/
inductive WName where
  | eax | ebx | ecx | edx
  deriving DecidableEq, Repr

/-- What a 128-bit register holds, if it holds a value (R24). -/
def Regs.xHeld (r : Regs) : XName → Option Block
  | .x0 => r.x0
  | .x1 => r.x1
  | .x2 => r.x2
  | .x3 => r.x3
  | .x4 => r.x4

/-- What a 32-bit register holds, if it holds a value (R24). -/
def Regs.wHeld (r : Regs) : WName → Option Word
  | .eax => r.eax
  | .ebx => r.ebx
  | .ecx => r.ecx
  | .edx => r.edx

/-- `x[Xk]` (R13). No operation reads a register that holds no value (R24); the reading is total all the same, and
gives a free value there. -/
def Regs.x (r : Regs) (n : XName) : Block :=
  match Regs.xHeld r n with
  | some v => v
  | none => Config.unheldBlock

/-- `x[EAX]` and its fellows (R13), total as `Regs.x` is. -/
def Regs.w (r : Regs) (n : WName) : Word :=
  match Regs.wHeld r n with
  | some v => v
  | none => Config.unheldWord

/-- `x[Xk] <- v` (R13). -/
def Regs.setX (r : Regs) (n : XName) (v : Block) : Regs :=
  match n with
  | .x0 => { r with x0 := some v }
  | .x1 => { r with x1 := some v }
  | .x2 => { r with x2 := some v }
  | .x3 => { r with x3 := some v }
  | .x4 => { r with x4 := some v }

/-- `x[EAX] <- v` and its fellows (R13). -/
def Regs.setW (r : Regs) (n : WName) (v : Word) : Regs :=
  match n with
  | .eax => { r with eax := some v }
  | .ebx => { r with ebx := some v }
  | .ecx => { r with ecx := some v }
  | .edx => { r with edx := some v }

/-! ### The state's named updates -/

/-- The state with another memory. -/
def State.withMem (s : State) (m : Memory) : State := { s with mem := m }

/-- The state in which `t` is the thread whose invocation runs. -/
def State.onThread (s : State) (t : ThreadId) : State := { s with thread := t }

/-- The state with other invocations in flight. -/
def State.withActive (s : State) (fs : List InFlight) : State := { s with active := fs }

/-- The state with other inputs to come. -/
def State.withInputs (s : State) (is : List Input) : State := { s with inputs := is }

/-- The state after one more value has been drawn. -/
def State.drawn (s : State) : State := { s with draws := s.draws + 1 }

/-- The running thread's invocation completes (R8). -/
def State.retire (s : State) (i : Instr) (e : Ending) : State :=
  { s with ended := { thread := s.thread, instr := i, ending := e } :: s.ended }

/-- The numeric code of a cause (R150). -/
def Cause.code : Cause → Nat
  | .illegalCommand => 1
  | .illegalInstruction => 2
  | .memoryFault => 3

/-- TAKING A FAULT (R159): the invocation ends without completing, nothing is read or written, and the triple joins the
fault record under the issuing thread's number, which stops that thread for good (`State.stopped`). Nothing else
changes: there is no vector, saved register, mode or stack. -/
def takeFault (issued : Issued) (cause : Cause) (info : Info) (s : State) : State :=
  { s with faults := { thread := s.thread, issued := issued, cause := cause, info := info } :: s.faults }

/-- The thread has faulted, so it issues nothing further (R159(e)). -/
def State.stopped (s : State) (t : ThreadId) : Bool := s.faults.any fun e => e.thread == t

/-- The thread has an invocation in flight (R58). -/
def State.busy (s : State) (t : ThreadId) : Bool := s.active.any fun f => f.thread == t

end Sys2Proof.Machine
end

