-- ==== Sys2Proof/Machine/Operands.lean ====
section
/-! DEFINITION. The operand forms: absolute addresses of regions (20_memory.md R47 to R49), the region discipline
(R51, R53), and the check of accessibility (60_exceptions.md R154). -/

namespace Sys2Proof.Machine

/-- One region an operand names, with the mode in which the operation uses it (R47, R154). -/
structure Region where
  base : Nat
  len : Nat
  reads : Bool
  writes : Bool
  deriving DecidableEq, Repr

/-- A source Block: mode "r" (R154). -/
def sourceRegion (a : Nat) : Region := { base := a, len := Config.fixed.blockBytes, reads := true, writes := false }

/-- An XOR destination: mode "w" (R154). -/
def destRegion (a : Nat) : Region := { base := a, len := Config.fixed.blockBytes, reads := false, writes := true }

/-- The state operand of an AES operation: mode "rw" (R154). -/
def stateRegion (a : Nat) : Region := { base := a, len := Config.fixed.blockBytes, reads := true, writes := true }

/-- The key material: 48 bytes, mode "r" (R44, R154). -/
def keyRegion (a : Nat) : Region := { base := a, len := Config.fixed.keyBytes, reads := true, writes := false }

/-- `Regions(inv)` in operand order (R49), with the modes of R154. -/
def regions : Instr → List Region
  | .queryCPUID _ _ => []
  | .xor2 a b dst => [sourceRegion a, sourceRegion b, destRegion dst]
  | .xor3 a b c dst => [sourceRegion a, sourceRegion b, sourceRegion c, destRegion dst]
  | .xor4 a b c d dst => [sourceRegion a, sourceRegion b, sourceRegion c, sourceRegion d, destRegion dst]
  | .aes4 state keyMaterial => [stateRegion state, keyRegion keyMaterial]
  | .aes10 state keyMaterial => [stateRegion state, keyRegion keyMaterial]

/-- The address the operation writes its Block to, if it writes one (R47). -/
def destination : Instr → Option Nat
  | .queryCPUID _ _ => none
  | .xor2 _ _ dst => some dst
  | .xor3 _ _ _ dst => some dst
  | .xor4 _ _ _ _ dst => some dst
  | .aes4 state _ => some state
  | .aes10 state _ => some state

/-! ### The region discipline -/

/-- Two regions are disjoint (R49). -/
def Region.disjoint (r q : Region) : Bool :=
  decide (r.base + r.len ≤ q.base) || decide (q.base + q.len ≤ r.base)

/-- Two regions are identical (R49). -/
def Region.identical (r q : Region) : Bool := decide (r.base = q.base) && decide (r.len = q.len)

/-- The pair keeps the discipline: identical or disjoint, not partially overlapping (R49, R51). -/
def Region.pairOk (r q : Region) : Bool := Region.identical r q || Region.disjoint r q

/-- Every pair of a list of regions keeps the discipline. -/
def regionsOk : List Region → Bool
  | [] => true
  | r :: rs => rs.all (Region.pairOk r) && regionsOk rs

/-! ### Accessibility -/

/-- The area holds the address. -/
def areaHolds (ar : Area) (a : Nat) : Bool := decide (ar.base ≤ a) && decide (a < ar.base + ar.size)

/-- `Readable(a)` (R40). -/
def readable (c : Config) (a : Nat) : Bool := c.areas.any fun ar => ar.readable && areaHolds ar a

/-- `Writable(a)` (R40). -/
def writable (c : Config) (a : Nat) : Bool := c.areas.any fun ar => ar.writable && areaHolds ar a

/-- The region lies in the address space, and each of its bytes grants what the mode asks (R154, one turn of the loop
of `CheckAccess`). -/
def accessible (c : Config) (r : Region) : Bool :=
  decide (r.base + r.len ≤ 2 ^ Config.fixed.addrBits)
    && (!r.reads || (List.range r.len).all fun i => readable c (r.base + i))
    && (!r.writes || (List.range r.len).all fun i => writable c (r.base + i))

/-- `CheckAccess` (R154): the base of the first region, in operand order, that is not accessible. -/
def checkAccess (c : Config) : List Region → Option Nat
  | [] => none
  | r :: rs => if accessible c r then checkAccess c rs else some r.base

end Sys2Proof.Machine
end

