-- ==== Sys2Proof/Machine/Flags.lean ====
section
/-! DEFINITION. The core has no flags, condition codes or predicates (10_state.md R26): no operation writes one and none
reads one. What stands in their place is what an operation tests before it runs (60_exceptions.md R151, R152, R158). -/

namespace Sys2Proof.Machine

/-- The extensions the operation needs are present (R100 stage 1, R136 stage 1, R151, R152). `queryCPUID` needs none
(R90). -/
def capable (c : Config) : Instr → Bool
  | .queryCPUID _ _ => true
  | .xor2 _ _ _ => c.hasSimd
  | .xor3 _ _ _ _ => c.hasSimd
  | .xor4 _ _ _ _ _ => c.hasSimd
  | .aes4 _ _ => c.hasSimd && c.hasAes
  | .aes10 _ _ => c.hasSimd && c.hasAes

/-- The cause and information of a fault. -/
structure Trap where
  cause : Cause
  info : Info
  deriving DecidableEq, Repr

/-- The one fault an invocation raises, if it raises one: the first that applies, the missing extension before the
first inaccessible region (R158). -/
def trapOf (c : Config) (i : Instr) : Option Trap :=
  if capable c i then
    match checkAccess c (regions i) with
    | some a => some { cause := .memoryFault, info := .base a }
    | none => none
  else some { cause := .illegalInstruction, info := .op (opcode i) }

end Sys2Proof.Machine
end

