-- ==== Sys2Proof/Machine/Invocation.lean ====
section
/-! DEFINITION. The stages every operation runs (41_xor.md R100, 42_aes.md R136), over its own reading stage and its own
computation. -/

namespace Sys2Proof.Machine

/-- The last stages, on the registers the reading stage loaded: where the region discipline is broken, sixteen drawn
bytes at the destination and the outcome `Undefined` (R52, R53); otherwise the computation, its result `X0` stored, and
`Done`. An operation with no destination returns its four words (R90). That no other byte changes is log entry 16. -/
def conclude (i : Instr) (compute : Regs → Regs) (r : Regs) (s : State) : State :=
  match destination i with
  | none =>
    let out := compute r
    s.retire i (.returned { eax := out.w .eax, ebx := out.w .ebx, ecx := out.w .ecx, edx := out.w .edx })
  | some dst =>
    if regionsOk (regions i) then
      (s.withMem (Memory.writeBlock s.mem dst ((compute r).x .x0))).retire i .done
    else
      ((s.withMem (Memory.writeBlock s.mem dst (Config.draw s.draws))).drawn).retire i .undefined

/-- One whole invocation on the running thread, as one atomic step (R59): the fault it raises (R158, R159), or else its
reading stage and its last stages. -/
def invoke (i : Instr) (load : Memory → Regs) (compute : Regs → Regs) (s : State) :
    Host.Outcome State Fault Refusal :=
  .next (match trapOf s.cfg i with
    | some t => takeFault (.invocation i) t.cause t.info s
    | none => conclude i compute (load s.mem) s)

end Sys2Proof.Machine
end

