-- ==== Sys2Proof/Machine/Aes.lean ====
section
/-! DEFINITION. The AES Round Function (42_aes.md): `aes4` and `aes10`. Both read the state and the three key Blocks
(R136 stage 3), run full rounds with a fixed list of round keys (R130, R131), and leave the result in `X0`. -/

namespace Sys2Proof.Machine

/-- The reading stage of both (R136): the state, key Blocks `I`, `J`, `L` at offsets 0, 16, 32 (R44), and the constant
`ZERO` (R55; log entry 15). -/
def aesLoad (state keyMaterial : Nat) (m : Memory) : Regs :=
  ((((Regs.empty.setX .x0 (Memory.readBlock m state)).setX .x1 (Memory.readBlock m keyMaterial)).setX .x2
    (Memory.readBlock m (keyMaterial + 16))).setX .x3 (Memory.readBlock m (keyMaterial + 32))).setX .x4 zeroBlock

/-- Stage 5 (R136): one full round for each round key of the schedule, the state carried in `X0`. -/
def aesRounds : List XName → Regs → Regs
  | [], r => r
  | key :: schedule, r => aesRounds schedule (r.setX .x0 (aesRound (r.x .x0) (r.x key)))

/-- The round keys of `aes4`: `J, I, L, ZERO` (R127). -/
def aes4Schedule : List XName := [.x2, .x1, .x3, .x4]

/-- The rounds of `aes4`. -/
def aes4Compute (r : Regs) : Regs := aesRounds aes4Schedule r

/-- `aes4(state, keyMaterial)` (R127). -/
def execAes4 (state keyMaterial : Nat) (s : State) : Host.Outcome State Fault Refusal :=
  invoke (.aes4 state keyMaterial) (aesLoad state keyMaterial) aes4Compute s

/-- The round keys of `aes10`: `I, J, L, I, J, L, I, J, L, I` (R128). -/
def aes10Schedule : List XName := [.x1, .x2, .x3, .x1, .x2, .x3, .x1, .x2, .x3, .x1]

/-- The rounds of `aes10`. -/
def aes10Compute (r : Regs) : Regs := aesRounds aes10Schedule r

/-- `aes10(state, keyMaterial)` (R128). -/
def execAes10 (state keyMaterial : Nat) (s : State) : Host.Outcome State Fault Refusal :=
  invoke (.aes10 state keyMaterial) (aesLoad state keyMaterial) aes10Compute s

end Sys2Proof.Machine
end

