-- ==== Sys2Proof/Machine/Cpuid.lean ====
section
/-! DEFINITION. The CPU Feature Detector (40_cpuid.md): `queryCPUID`. -/

namespace Sys2Proof.Machine

/-- `CPUID_TABLE` (R91): the words the configuration lists for the pair, else those it gives every other pair, else the
free value. -/
def cpuidTable (c : Config) (leaf subleaf : Word) : CapWords :=
  match c.cpuid.find? fun e => e.leaf == leaf && e.subleaf == subleaf with
  | some e => e.words
  | none => c.cpuidRest.getD (Config.cpuidElse leaf subleaf)

/-- The reading stage: the two inputs into the designated input registers (R90, R94). -/
def queryCPUIDLoad (leaf subleaf : Word) (_ : Memory) : Regs :=
  (Regs.empty.setW .eax leaf).setW .ecx subleaf

/-- The query itself: the table's words, untouched, into the four output registers (R90, R92). -/
def queryCPUIDCompute (c : Config) (r : Regs) : Regs :=
  let words := cpuidTable c (r.w .eax) (r.w .ecx)
  (((r.setW .eax words.eax).setW .ebx words.ebx).setW .ecx words.ecx).setW .edx words.edx

/-- `queryCPUID(leaf, subleaf)` (R90). -/
def execQueryCPUID (leaf subleaf : Word) (s : State) : Host.Outcome State Fault Refusal :=
  invoke (.queryCPUID leaf subleaf) (queryCPUIDLoad leaf subleaf) (queryCPUIDCompute s.cfg) s

end Sys2Proof.Machine
end

