-- ==== Sys2Proof/Machine/Xor.lean ====
section
/-! DEFINITION. The Block XOR Combiner (41_xor.md): `xor2`, `xor3`, `xor4`. Each reads its sources into `X0` upwards in
operand order (R100 stage 3) and leaves its combination in `X0` (stage 4). -/

namespace Sys2Proof.Machine

/-- The reading stage of `xor2`. -/
def xor2Load (a b : Nat) (m : Memory) : Regs :=
  (Regs.empty.setX .x0 (Memory.readBlock m a)).setX .x1 (Memory.readBlock m b)

/-- `X0 <- X0 ^ X1` (R101). -/
def xor2Compute (r : Regs) : Regs := r.setX .x0 (xorBlock (r.x .x0) (r.x .x1))

/-- `xor2(a, b, dst)` (R101). -/
def execXor2 (a b dst : Nat) (s : State) : Host.Outcome State Fault Refusal :=
  invoke (.xor2 a b dst) (xor2Load a b) xor2Compute s

/-- The reading stage of `xor3`. -/
def xor3Load (a b c : Nat) (m : Memory) : Regs :=
  ((Regs.empty.setX .x0 (Memory.readBlock m a)).setX .x1 (Memory.readBlock m b)).setX .x2 (Memory.readBlock m c)

/-- `X0 <- X0 ^ X1`, then `X0 <- X0 ^ X2` (R102). -/
def xor3Compute (r : Regs) : Regs :=
  let r1 := r.setX .x0 (xorBlock (r.x .x0) (r.x .x1))
  r1.setX .x0 (xorBlock (r1.x .x0) (r1.x .x2))

/-- `xor3(a, b, c, dst)` (R102). -/
def execXor3 (a b c dst : Nat) (s : State) : Host.Outcome State Fault Refusal :=
  invoke (.xor3 a b c dst) (xor3Load a b c) xor3Compute s

/-- The reading stage of `xor4`. -/
def xor4Load (a b c d : Nat) (m : Memory) : Regs :=
  (((Regs.empty.setX .x0 (Memory.readBlock m a)).setX .x1 (Memory.readBlock m b)).setX .x2
    (Memory.readBlock m c)).setX .x3 (Memory.readBlock m d)

/-- `X0 <- X0 ^ X1`, `X2 <- X2 ^ X3`, then `X0 <- X0 ^ X2`: the source's grouping (R103). -/
def xor4Compute (r : Regs) : Regs :=
  let r1 := r.setX .x0 (xorBlock (r.x .x0) (r.x .x1))
  let r2 := r1.setX .x2 (xorBlock (r1.x .x2) (r1.x .x3))
  r2.setX .x0 (xorBlock (r2.x .x0) (r2.x .x2))

/-- `xor4(a, b, c, d, dst)` (R103). -/
def execXor4 (a b c d dst : Nat) (s : State) : Host.Outcome State Fault Refusal :=
  invoke (.xor4 a b c d dst) (xor4Load a b c d) xor4Compute s

end Sys2Proof.Machine
end

