-- ==== Sys2Proof/Machine/Dispatch.lean ====
section
/-! DEFINITION. One arm per instruction: what each does, as one atomic step of the running thread. -/

namespace Sys2Proof.Machine

def exec (i : Instr) (s : State) : Host.Outcome State Fault Refusal :=
  match i with
  | .queryCPUID leaf subleaf => Sys2Proof.Machine.execQueryCPUID leaf subleaf s
  | .xor2 a b dst => Sys2Proof.Machine.execXor2 a b dst s
  | .xor3 a b c dst => Sys2Proof.Machine.execXor3 a b c dst s
  | .xor4 a b c d dst => Sys2Proof.Machine.execXor4 a b c d dst s
  | .aes4 state keyMaterial => Sys2Proof.Machine.execAes4 state keyMaterial s
  | .aes10 state keyMaterial => Sys2Proof.Machine.execAes10 state keyMaterial s

end Sys2Proof.Machine
end

