-- ==== Sys2Proof/Machine/Caller.lean ====
section
/-! DEFINITION. What each input does: issuing, the invocations in flight (20_memory.md R58 to R60), the caller's own
accesses, and reset (70_reset_and_hazards.md R180 to R183). -/

namespace Sys2Proof.Machine

/-! ### Conflicts between accesses that are active together -/

/-- One of two regions is written and they meet (R59). -/
def Region.conflicts (r q : Region) : Bool := (r.writes || q.writes) && !Region.disjoint r q

/-- Some region of the first list conflicts with some region of the second. -/
def regionsConflict (rs qs : List Region) : Bool := rs.any fun r => qs.any fun q => Region.conflicts r q

/-- `NoConflict` fails against some invocation in flight (R59). -/
def conflictsWithActive (rs : List Region) (fs : List InFlight) : Bool :=
  fs.any fun f => regionsConflict rs (regions f.instr)

/-! ### Issuing and finishing -/

/-- The reading stage of each operation. -/
def loadOf : Instr → Memory → Regs
  | .queryCPUID leaf subleaf => queryCPUIDLoad leaf subleaf
  | .xor2 a b _ => xor2Load a b
  | .xor3 a b c _ => xor3Load a b c
  | .xor4 a b c d _ => xor4Load a b c d
  | .aes4 state keyMaterial => aesLoad state keyMaterial
  | .aes10 state keyMaterial => aesLoad state keyMaterial

/-- The computation of each operation. -/
def computeOf (c : Config) : Instr → Regs → Regs
  | .queryCPUID _ _ => queryCPUIDCompute c
  | .xor2 _ _ _ => xor2Compute
  | .xor3 _ _ _ _ => xor3Compute
  | .xor4 _ _ _ _ _ => xor4Compute
  | .aes4 _ _ => aes4Compute
  | .aes10 _ _ => aes10Compute

/-- The running thread's invocation begins and stays in flight with its registers loaded, unless it faults. -/
def startFlight (i : Instr) (s : State) : Host.Outcome State Fault Refusal :=
  .next (match trapOf s.cfg i with
    | some t => takeFault (.invocation i) t.cause t.info s
    | none => s.withActive (s.active ++ [{ thread := s.thread, instr := i, regs := loadOf i s.mem }]))

/-- A thread issues a descriptor, and `run` is what the core does with the invocation. A stopped thread issues nothing
(R159(e)); a reserved opcode faults before any operand is looked at (R153); an invocation that raises no fault must not
conflict with one in flight (R60; log entry 12). -/
def issue (t : ThreadId) (d : Descriptor) (run : Instr → State → Host.Outcome State Fault Refusal) (s : State) :
    Host.Outcome State Fault Refusal :=
  if s.stopped t then .next s
  else if s.busy t then .refused .threadBusy
  else
    match decode d with
    | .error (.reservedOpcode op) =>
      .next (takeFault (.descriptor d) .illegalCommand (.op op) (s.onThread t))
    | .ok i =>
      if conflictsWithActive (regions i) s.active && (trapOf s.cfg i).isNone then .refused .conflict
      else run i (s.onThread t)

/-- The thread's invocation in flight runs its last stages and leaves (R59). -/
def finish (t : ThreadId) (s : State) : Host.Outcome State Fault Refusal :=
  match s.active.find? fun f => f.thread == t with
  | none => .refused .nothingInFlight
  | some f =>
    .next (conclude f.instr (computeOf s.cfg f.instr) f.regs
      ((s.withActive (s.active.eraseP fun g => g.thread == t)).onThread t))

/-! ### The caller's own accesses -/

/-- A run of addresses the caller reads. -/
def callerReads (a : Nat) (n : Nat) : Region := { base := a, len := n, reads := true, writes := false }

/-- A run of addresses the caller writes. -/
def callerWrites (a : Nat) (n : Nat) : Region := { base := a, len := n, reads := false, writes := true }

/-- A caller access must lie in the address space (R40) and must not conflict with an invocation in flight (R59, R60;
log entry 12). -/
def callerAccess (r : Region) (s s' : State) : Host.Outcome State Fault Refusal :=
  if 2 ^ Config.fixed.addrBits < r.base + r.len then .fault .callerOutsideAddressSpace
  else if conflictsWithActive [r] s.active then .refused .conflict
  else .next s'

/-! ### Reset -/

/-- An invocation in flight is lost: its destination holds drawn bytes, and no other byte changes (R183). -/
def abandon (s : State) (f : InFlight) : State :=
  match destination f.instr with
  | none => s
  | some dst => (s.withMem (Memory.writeBlock s.mem dst (Config.draw s.draws))).drawn

/-- Reset of the core: every invocation in flight is lost, the core is idle, and nothing else changes (R180 to R183;
log entry 13). -/
def resetCore (s : State) : State := (s.active.foldl abandon s).withActive []

/-! ### One input -/

/-- What the next input does to the machine. -/
def accept (e : Input) (s : State) : Host.Outcome State Fault Refusal :=
  match e with
  | .call t d => issue t d exec s
  | .start t d => issue t d startFlight s
  | .finish t => finish t s
  | .callerRead a n => callerAccess (callerReads a n) s s
  | .callerWrite a bytes =>
    callerAccess (callerWrites a bytes.length) s (s.withMem (Memory.setBytes s.mem a bytes))
  | .reset => .next (resetCore s)

/-- A thread that is neither stopped nor busy: one above every number in use. -/
def State.freeThread (s : State) : ThreadId :=
  (s.active.map (fun f => f.thread) ++ s.faults.map (fun e => e.thread)).foldr (fun t n => max (t + 1) n) 0

end Sys2Proof.Machine
end

