-- ==== Sys2Proof/Machine/Step.lean ====
section
/-! DEFINITION. One step: the core takes the next input (00_scope.md R7). It fetches nothing (20_memory.md R63) and
starts nothing on its own, so with no input to come it stays as it is (log entry 7). -/

namespace Sys2Proof.Machine

def step (s : State) : Host.Outcome State Fault Refusal :=
  match s.inputs with
  | [] => .next s
  | e :: rest => accept e (s.withInputs rest)

/-- The state in which a free thread issues, as the next input, the descriptor with the given opcode-table bits
(log entry 9). -/
def State.withFetchWord (s : State) (nbits w : Nat) : State :=
  s.withInputs (.call s.freeThread (tableDescriptor nbits w) :: s.inputs)

end Sys2Proof.Machine
end

