-- ==== Sys2Proof/Machine/Text.lean ====
section
/-! DEFINITION. The textual form of an invocation (30_encoding.md R71): the mnemonic, an opening parenthesis, the
operands in the order of R70 separated by commas, a closing parenthesis. Text is a list of characters. -/

namespace Sys2Proof.Machine

/-! ### Writing -/

/-- A hexadecimal digit. -/
def hexDigit (v : Nat) : Char := ("0123456789abcdef".toList).getD v '0'

/-- The last `n` hexadecimal digits of a number, most significant first. -/
def hexDigits : Nat → Nat → List Char
  | 0, _ => []
  | n + 1, v => hexDigits n (v / 16) ++ [hexDigit (v % 16)]

/-- An operand as a number with the `0x` prefix (R10, R71), in 16 digits, as many as an address has. -/
def numberText (v : Nat) : List Char := '0' :: 'x' :: hexDigits 16 v

/-- The mnemonic, letter for letter (R70, R71). -/
def mnemonicText : Instr → List Char
  | .queryCPUID _ _ => "queryCPUID".toList
  | .xor2 _ _ _ => "xor2".toList
  | .xor3 _ _ _ _ => "xor3".toList
  | .xor4 _ _ _ _ _ => "xor4".toList
  | .aes4 _ _ => "aes4".toList
  | .aes10 _ _ => "aes10".toList

/-- The operands, separated by commas. -/
def operandsText : List Nat → List Char
  | [] => []
  | [v] => numberText v
  | v :: vs => numberText v ++ ',' :: operandsText vs

/-- The textual form of an invocation (R71). -/
def invocationText (i : Instr) : List Char := mnemonicText i ++ '(' :: operandsText (operands i) ++ [')']

/-! ### Reading -/

/-- The value of a digit in base 10 or 16. -/
def digitValue (base : Nat) (ch : Char) : Option Nat :=
  let n := ch.toNat
  let v := if 48 ≤ n && n ≤ 57 then n - 48 else if 97 ≤ n && n ≤ 102 then n - 87
    else if 65 ≤ n && n ≤ 70 then n - 55 else base
  if v < base then some v else none

/-- The value of a run of digits, most significant first, read after those already read. -/
def digitsValue (base : Nat) : Nat → List Char → Option Nat
  | acc, [] => some acc
  | acc, ch :: rest =>
    match digitValue base ch with
    | some v => digitsValue base (base * acc + v) rest
    | none => none

/-- A number: decimal, or hexadecimal after `0x` (R10, R71); at least one digit. -/
def readNumber : List Char → Option Nat
  | [] => none
  | '0' :: 'x' :: ch :: rest => digitsValue 16 0 (ch :: rest)
  | ch :: rest => digitsValue 10 0 (ch :: rest)

/-- The pieces of a text between the occurrences of a separator. -/
def splitOn (sep : Char) : List Char → List (List Char)
  | [] => [[]]
  | ch :: rest =>
    match splitOn sep rest with
    | [] => [[ch]]
    | piece :: pieces => if ch = sep then [] :: piece :: pieces else (ch :: piece) :: pieces

/-- Every piece read as a number. -/
def readNumbers : List (List Char) → Option (List Nat)
  | [] => some []
  | piece :: pieces =>
    match readNumber piece, readNumbers pieces with
    | some v, some vs => some (v :: vs)
    | _, _ => none

/-- The invocation of a mnemonic and its operand values (R70). A number too large for its operand names none. -/
def invocationOf (mnemonic : List Char) (vs : List Nat) : Option Instr :=
  let found : Option Instr :=
    match vs with
    | [v0, v1] =>
      if mnemonic = "queryCPUID".toList then
        if v0 < 2 ^ 32 && v1 < 2 ^ 32 then some (.queryCPUID (BitVec.ofNat 32 v0) (BitVec.ofNat 32 v1)) else none
      else if mnemonic = "aes4".toList then some (.aes4 v0 v1)
      else if mnemonic = "aes10".toList then some (.aes10 v0 v1)
      else none
    | [v0, v1, v2] => if mnemonic = "xor2".toList then some (.xor2 v0 v1 v2) else none
    | [v0, v1, v2, v3] => if mnemonic = "xor3".toList then some (.xor3 v0 v1 v2 v3) else none
    | [v0, v1, v2, v3, v4] => if mnemonic = "xor4".toList then some (.xor4 v0 v1 v2 v3 v4) else none
    | _ => none
  found.filter wellFormed

/-- The invocation a text names (R71); blanks are ignored. A text of any other form names none. -/
def readInvocation (text : List Char) : Option Instr :=
  match splitOn '(' (text.filter fun ch => ch != ' ') with
  | [mnemonic, rest] =>
    match rest.reverse with
    | ')' :: body =>
      match readNumbers (splitOn ',' body.reverse) with
      | some vs => invocationOf mnemonic vs
      | none => none
    | _ => none
  | _ => none

end Sys2Proof.Machine
end

