-- ==== Sys2Proof/Safety.lean ====
section
/-! DEFINITION. The terms claims about the machine use: what an operation may access, the region discipline, what a
store leaves, the machine's invariant, and the caller's premises. -/

namespace Sys2Proof.Machine

/-! ### Premises on an operation's operands -/

/-- The region lies in the address space and each of its bytes grants what the operation does there (R41, R42, R154). -/
def Accessible (c : Config) (r : Region) : Prop :=
  r.base + r.len ≤ 2 ^ 64
    ∧ (r.reads = true → ∀ k, k < r.len → readable c (r.base + k) = true)
    ∧ (r.writes = true → ∀ k, k < r.len → writable c (r.base + k) = true)

/-- Two regions are identical or disjoint (R49, R51). -/
def Apart (r q : Region) : Prop :=
  (r.base = q.base ∧ r.len = q.len) ∨ r.base + r.len ≤ q.base ∨ q.base + q.len ≤ r.base

/-- Two Block addresses name identical or disjoint Blocks (R49, R51). -/
def AddressesApart (p q : Nat) : Prop := p = q ∨ p + 16 ≤ q ∨ q + 16 ≤ p

/-- `RegionsOk` (R51, R53): every pair of the regions is identical or disjoint. -/
def Disciplined (rs : List Region) : Prop := rs.Pairwise Apart

/-- What the caller owes an XOR operation (R21, R51, R185): its extension, access to its regions, and the discipline. -/
def XorReady (c : Config) (i : Instr) : Prop :=
  c.hasSimd = true ∧ (∀ r ∈ regions i, Accessible c r) ∧ Disciplined (regions i)

/-- What the caller owes an AES operation (R21, R53, R185, R188). -/
def AesReady (c : Config) (i : Instr) : Prop :=
  c.hasSimd = true ∧ c.hasAes = true ∧ (∀ r ∈ regions i, Accessible c r) ∧ Disciplined (regions i)

/-- `CfgConsistent` (R95): the convention that ties the extensions to two bits of the table. A premise of claims, never
part of the step. -/
def CfgConsistent (c : Config) : Prop :=
  c.hasAes = (cpuidTable c 1 0).ecx.getLsbD 25 ∧ c.hasSimd = (cpuidTable c 1 0).edx.getLsbD 26

/-! ### What an operation leaves -/

/-- The sixteen bytes at `dst` become the given ones, and every other byte of memory is as before (R42, R47). -/
def StoresAt (dst : Nat) (value : Nat → Byte) (m m' : Memory) : Prop :=
  (∀ k, k < 16 → Memory.byte m' (dst + k) = value k)
    ∧ ∀ a, (a < dst ∨ dst + 16 ≤ a) → Memory.byte m' a = Memory.byte m a

/-- Every byte of memory is as before. -/
def SameBytes (m m' : Memory) : Prop := ∀ a, Memory.byte m' a = Memory.byte m a

/-- Everything but memory, the draws and the list of completed invocations is as before: the configuration, the
invocations in flight with all their registers, the fault record, the running thread and the inputs to come. -/
def OnlyResult (s s' : State) : Prop :=
  s'.cfg = s.cfg ∧ s'.active = s.active ∧ s'.faults = s.faults ∧ s'.thread = s.thread ∧ s'.inputs = s.inputs

/-- The state a fault leaves: one more triple in the record, and nothing else changed (R159). -/
def faulted (i : Instr) (c : Cause) (n : Info) (s : State) : State :=
  { s with faults := { thread := s.thread, issued := .invocation i, cause := c, info := n } :: s.faults }

/-- The Block an operation stored at its destination, where it answers a next state. -/
def storedBlock (i : Instr) (dst : Nat) (s : State) : Option Block :=
  match exec i s with
  | .next t => some (Memory.readBlock t.mem dst)
  | _ => none

/-- The function `aes4` computes, from the state and the three key Blocks (R127). -/
def aes4Block (state i j l : Block) : Block := aesRound (aesRound (aesRound (aesRound state j) i) l) zeroBlock

/-- The function `aes10` computes (R128). -/
def aes10Block (state i j l : Block) : Block :=
  aesRound (aesRound (aesRound (aesRound (aesRound (aesRound (aesRound (aesRound (aesRound (aesRound state i) j) l)
    i) j) l) i) j) l) i

/-- The Block at `dst` becomes the given one, and every byte outside it is as before. -/
def StoresBlock (dst : Nat) (b : Block) (m m' : Memory) : Prop :=
  Memory.readBlock m' dst = b ∧ ∀ a, (a < dst ∨ dst + 16 ≤ a) → Memory.byte m' a = Memory.byte m a

/-- The contract of a portable fallback (R193): where the state and the key material are disjoint, it leaves the
function's Block in the state buffer and changes nothing else. -/
def FallbackContract (f : Block → Block → Block → Block → Block) (p : Memory → Nat → Nat → Memory) : Prop :=
  ∀ m state key, (state + 16 ≤ key ∨ key + 48 ≤ state) →
    StoresBlock state
      (f (Memory.readBlock m state) (Memory.readBlock m key) (Memory.readBlock m (key + 16))
        (Memory.readBlock m (key + 32)))
      m (p m state key)

/-- The value of `argk` as R73 writes it: the sum of the field's bytes, each times its power of two. -/
def fieldValue (d : Descriptor) (k : Fin 5) : Nat :=
  (List.ofFn fun j : Fin 8 => (d[8 + 8 * k.val + j.val]'(by omega)).toNat * 2 ^ (8 * j.val)).sum

/-- The byte of a descriptor carries information of the invocation: the opcode, and the bytes of the operands' fields,
of a word's field the low half (R75, R76, R77). -/
def usedByte (i : Instr) (k : Nat) : Bool :=
  match i with
  | .queryCPUID _ _ => k == 0 || (8 ≤ k && k < 12) || (16 ≤ k && k < 20)
  | .xor2 _ _ _ => k == 0 || (8 ≤ k && k < 32)
  | .xor3 _ _ _ _ => k == 0 || (8 ≤ k && k < 40)
  | .xor4 _ _ _ _ _ => k == 0 || (8 ≤ k && k < 48)
  | .aes4 _ _ => k == 0 || (8 ≤ k && k < 24)
  | .aes10 _ _ => k == 0 || (8 ≤ k && k < 24)

/-! ### Runs -/

/-- `NoConflict` (R59) of a list of regions against the invocations in flight: each region that is written, on either
side, is disjoint from every region of the other side. -/
def NoConflict (rs : List Region) (fs : List InFlight) : Prop :=
  ∀ f ∈ fs, ∀ r ∈ rs, ∀ q ∈ regions f.instr, (r.writes = true ∨ q.writes = true) →
    r.base + r.len ≤ q.base ∨ q.base + q.len ≤ r.base

/-- The thread may issue: it has not faulted and has nothing in flight (R58, R159(e)). -/
def MayIssue (s : State) (t : ThreadId) : Prop := s.stopped t = false ∧ s.busy t = false

/-- The state is final: no input to come, nothing in flight, no fault recorded (R31, R159(e)). -/
def Final (s : State) : Prop := s.inputs = [] ∧ s.active = [] ∧ s.faults = []

/-- The invariant of the machine. -/
structure Inv (s : State) : Prop where
  /-- Memory is in its canonical form, inside the address space (R40). -/
  memory : Memory.wf s.mem
  /-- A thread has at most one invocation in flight (R58). -/
  oneInFlight : s.active.Pairwise fun f g => f.thread ≠ g.thread
  /-- A thread with an invocation in flight has not faulted (R159(e)). -/
  runningNotStopped : ∀ f ∈ s.active, s.stopped f.thread = false
  /-- What is in flight is an invocation, and raises no fault: its checks passed when it began (R154, R158). -/
  admitted : ∀ f ∈ s.active, wellFormed f.instr = true ∧ trapOf s.cfg f.instr = none
  /-- No two invocations in flight conflict (R59). -/
  noConflict : s.active.Pairwise fun f g => NoConflict (regions f.instr) [g]
  /-- Each invocation's registers hold what reading memory now would give: no other agent has touched its regions (R24,
  R59). -/
  loaded : ∀ f ∈ s.active, f.regs = loadOf f.instr s.mem
  /-- A thread faults at most once (R159(e)), so the record has no repeats (R31). -/
  oneFault : s.faults.Pairwise fun e g => e.thread ≠ g.thread

end Sys2Proof.Machine
end

