-- ==== Sys2Proof/Certificates/Slice0/Obligations.lean ====
section
/-! DEFINITION. The statements for the provers. Each docstring names the rule of the spec it formalises, or says that it
is the model's own. A statement about a free value (`Config.draw`, `Config.unwritten`, `Config.cpuidElse`) holds for
every value of it: nothing about these constants can be proved. -/

open Sys2Proof Sys2Proof.Machine

/-! ### Encoding (30_encoding.md) -/

/-- Decoding an encoded invocation gives it back, whatever its operands. -/
def Obligations.DecodeOfEncodeGivesBackTheInvocation : Prop :=
  ∀ i : Instr, wellFormed i = true → decode (encode i) = .ok i

/-- R77 (the spec's decision D4): what the decoder ignores, what the encoder writes there, and when encoding a decoded descriptor gives it
back. -/
def Obligations.IgnoredBytesDoNotReachTheInvocation : Prop :=
  (∀ (d d' : Descriptor) (i : Instr), decode d = .ok i →
    (∀ k (_ : k < 48), usedByte i k = true → d'[k] = d[k]) → decode d' = .ok i)
  ∧ (∀ (i : Instr) k (_ : k < 48), usedByte i k = false → (encode i)[k] = 0)
  ∧ (∀ (d : Descriptor) (i : Instr), decode d = .ok i →
      (encode i = d ↔ ∀ k (_ : k < 48), usedByte i k = false → d[k] = 0))
  ∧ (∀ i : Instr, wellFormed i = true → decode (encode i) = .ok i)

/-- R82 (the spec's decision D2): the decoder, opcode by opcode, the fields being the sums of R73. -/
def Obligations.DecodingFollowsItsTable : Prop :=
  ∀ d : Descriptor,
    (d[0] = 0x01 → decode d = .ok (.queryCPUID (BitVec.ofNat 32 (fieldValue d 0 % 2 ^ 32))
      (BitVec.ofNat 32 (fieldValue d 1 % 2 ^ 32))))
    ∧ (d[0] = 0x02 → decode d = .ok (.xor2 (fieldValue d 0) (fieldValue d 1) (fieldValue d 2)))
    ∧ (d[0] = 0x03 → decode d = .ok (.xor3 (fieldValue d 0) (fieldValue d 1) (fieldValue d 2) (fieldValue d 3)))
    ∧ (d[0] = 0x04 → decode d = .ok (.xor4 (fieldValue d 0) (fieldValue d 1) (fieldValue d 2) (fieldValue d 3)
        (fieldValue d 4)))
    ∧ (d[0] = 0x05 → decode d = .ok (.aes4 (fieldValue d 0) (fieldValue d 1)))
    ∧ (d[0] = 0x06 → decode d = .ok (.aes10 (fieldValue d 0) (fieldValue d 1)))
    ∧ (d[0] = 0x00 ∨ 0x07 ≤ (d[0]).toNat → decode d = .error (.reservedOpcode d[0]))

/-- Whatever bytes decode, the invocation they give is well-formed. -/
def Obligations.DecodedInvocationsAreWellFormed : Prop :=
  ∀ (d : Descriptor) (i : Instr), decode d = .ok i → wellFormed i = true

/-- The descriptors 95_test_vectors.md section 7 writes out decode to the invocations they stand for: one of each
operation. -/
def Obligations.WrittenOutDescriptorsDecode : Prop :=
  decode #v[0x01, 0xff, 0xff, 0xff, 0xff, 0xff, 0xff, 0xff, 0x01, 0x00, 0x00, 0x00, 0xef, 0xbe, 0xad, 0xde,
      0x00, 0x00, 0x00, 0x00, 0x78, 0x56, 0x34, 0x12, 0x00, 0x00, 0x00, 0x00, 0x00, 0x00, 0x00, 0x00,
      0xa5, 0xa5, 0xa5, 0xa5, 0xa5, 0xa5, 0xa5, 0xa5, 0xa5, 0xa5, 0xa5, 0xa5, 0xa5, 0xa5, 0xa5, 0xa5]
    = .ok (.queryCPUID 1 0)
  ∧ decode #v[0x02, 0, 0, 0, 0, 0, 0, 0, 0xe1, 0xbe, 0xad, 0xde, 0xff, 0x7f, 0x00, 0x00,
      0xf0, 0xff, 0xff, 0xff, 0xff, 0xff, 0xff, 0xff, 0x00, 0x00, 0x00, 0x00, 0x00, 0x00, 0x00, 0x80,
      0, 0, 0, 0, 0, 0, 0, 0, 0, 0, 0, 0, 0, 0, 0, 0]
    = .ok (.xor2 0x00007fffdeadbee1 0xfffffffffffffff0 0x8000000000000000)
  ∧ decode #v[0x03, 0, 0, 0, 0, 0, 0, 0, 0x00, 0x01, 0, 0, 0, 0, 0, 0,
      0x10, 0x01, 0, 0, 0, 0, 0, 0, 0x20, 0x01, 0, 0, 0, 0, 0, 0,
      0x40, 0x01, 0, 0, 0, 0, 0, 0, 0, 0, 0, 0, 0, 0, 0, 0]
    = .ok (.xor3 0x100 0x110 0x120 0x140)
  ∧ decode #v[0x04, 0, 0, 0, 0, 0, 0, 0, 0x00, 0x01, 0, 0, 0, 0, 0, 0,
      0x10, 0x01, 0, 0, 0, 0, 0, 0, 0x20, 0x01, 0, 0, 0, 0, 0, 0,
      0x30, 0x01, 0, 0, 0, 0, 0, 0, 0x40, 0x01, 0, 0, 0, 0, 0, 0]
    = .ok (.xor4 0x100 0x110 0x120 0x130 0x140)
  ∧ decode #v[0x05, 0xa5, 0xa5, 0xa5, 0xa5, 0xa5, 0xa5, 0xa5, 0x00, 0x10, 0, 0, 0, 0, 0, 0,
      0x00, 0x20, 0, 0, 0, 0, 0, 0, 0xff, 0xff, 0xff, 0xff, 0xff, 0xff, 0xff, 0xff,
      0xff, 0xff, 0xff, 0xff, 0xff, 0xff, 0xff, 0xff, 0xff, 0xff, 0xff, 0xff, 0xff, 0xff, 0xff, 0xff]
    = .ok (.aes4 0x1000 0x2000)
  ∧ decode #v[0x06, 0, 0, 0, 0, 0, 0, 0, 0x10, 0x10, 0, 0, 0, 0, 0, 0,
      0x00, 0x20, 0, 0, 0, 0, 0, 0, 0, 0, 0, 0, 0, 0, 0, 0, 0, 0, 0, 0, 0, 0, 0, 0, 0, 0, 0, 0, 0, 0, 0, 0]
    = .ok (.aes10 0x1010 0x2000)

/-- The textual form (R71) of an invocation names that invocation and no other. That the writer pads numbers to 16
hexadecimal digits is the model's choice (log entry 10). -/
def Obligations.TextNamesItsInvocation : Prop :=
  ∀ i : Instr, wellFormed i = true → readInvocation (invocationText i) = some i

/-! ### The step -/

/-- A step whose next input issues a descriptor runs the invocation it decodes to, on the issuing thread, past that
input: the thread may issue, and the invocation either faults or conflicts with nothing in flight. That an issued
invocation may run whole as one step is the model's choice (log entry 7; R59 allows it), and so is that one which faults
runs although it conflicts with one in flight (log entry 12). -/
def Obligations.StepRunsTheDecodedInvocation : Prop :=
  ∀ (s : State) (t : ThreadId) (d : Descriptor) (rest : List Input) (i : Instr),
    s.inputs = .call t d :: rest → MayIssue s t → decode d = .ok i →
    (trapOf s.cfg i ≠ none ∨ NoConflict (regions i) s.active) →
    step s = exec i { s with inputs := rest, thread := t }

/-- The table word placed by `withFetchWord` is what the very next step runs (log entry 9). -/
def Obligations.NextStepRunsTheTableWord : Prop :=
  ∀ (s : State) (nbits w : Nat) (i : Instr), decodeTableWord nbits w = some i → NoConflict (regions i) s.active →
    ∃ t, MayIssue s t ∧ step (s.withFetchWord nbits w) = exec i { s with thread := t }

/-- R153 (the spec's decision D5): issuing a descriptor with a reserved opcode faults, whatever its operand fields hold and in whichever way it
is issued; the record gains the triple, and nothing else of the machine changes. -/
def Obligations.ReservedOpcodeFaults : Prop :=
  ∀ (s : State) (t : ThreadId) (d : Descriptor) (rest : List Input),
    (s.inputs = .call t d :: rest ∨ s.inputs = .start t d :: rest) → MayIssue s t →
    (d[0] = 0x00 ∨ 0x07 ≤ (d[0]).toNat) →
    step s = .next { s with
      inputs := rest, thread := t,
      faults := { thread := t, issued := .descriptor d, cause := .illegalCommand, info := .op d[0] } :: s.faults }

/-- With no input to come a step changes nothing: the core never issues an invocation on its own (R7). That the step
answers the same state is the model's choice (log entry 7). -/
def Obligations.IdleCoreStaysAsItIs : Prop := ∀ s : State, s.inputs = [] → step s = .next s

/-! ### The CPU Feature Detector (40_cpuid.md) -/

/-- The query returns the words of `CPUID_TABLE` untouched (R92), in every state and for every pair (R90, R91), and changes
nothing else (R93): no memory, no fault, with or without the extensions (R90, derived by the spec from R96). -/
def Obligations.QueryReturnsTheTablesWordsUntouched : Prop :=
  ∀ (leaf subleaf : Word) (s : State),
    exec (.queryCPUID leaf subleaf) s = .next { s with
      ended := { thread := s.thread, instr := .queryCPUID leaf subleaf,
                 ending := .returned (cpuidTable s.cfg leaf subleaf) } :: s.ended }

/-- R93: the query changes no memory, no configuration and nothing a later invocation can see, and having no regions it
conflicts with nothing. -/
def Obligations.QueryHasNoSideEffect : Prop :=
  (∀ (leaf subleaf : Word) (s t : State), exec (.queryCPUID leaf subleaf) s = .next t →
    t = { s with ended := t.ended }
    ∧ ∀ (i : Instr) (u : State), exec i s = .next u →
      ∃ new, u.ended = new ++ s.ended ∧ exec i t = .next { u with ended := new ++ t.ended })
  ∧ (∀ (leaf subleaf : Word) (fs : List InFlight), NoConflict (regions (.queryCPUID leaf subleaf)) fs)
  ∧ (∀ (leaf subleaf : Word) (rs : List Region) (t : ThreadId) (r : Regs),
    NoConflict rs [{ thread := t, instr := .queryCPUID leaf subleaf, regs := r }])

/-- R91 (the spec's decision D8): the same pair gives the same words however many steps lie between two queries. -/
def Obligations.QueryIsStableAlongEveryRun : Prop :=
  ∀ (n : Nat) (s s' : State) (leaf subleaf : Word), Sys2Proof.core.run n s = .next s' →
    ∃ words : CapWords,
      exec (.queryCPUID leaf subleaf) s = .next { s with
        ended := { thread := s.thread, instr := .queryCPUID leaf subleaf, ending := .returned words } :: s.ended }
      ∧ exec (.queryCPUID leaf subleaf) s' = .next { s' with
        ended := { thread := s'.thread, instr := .queryCPUID leaf subleaf, ending := .returned words } :: s'.ended }

/-- R95 (the spec's decision D9, its bit positions from general knowledge): under `CfgConsistent`, a caller that queried (1, 0) and saw both bits set takes no illegal-instruction fault
afterwards, however long it runs: an operation faults, if at all, for an inaccessible region. -/
def Obligations.ProbedCallerTakesNoIllegalInstruction : Prop :=
  ∀ (s t u v : State) (n : Nat) (words : CapWords) (i : Instr), CfgConsistent s.cfg →
    exec (.queryCPUID 1 0) s = .next t →
    t.ended = { thread := s.thread, instr := .queryCPUID 1 0, ending := .returned words } :: s.ended →
    words.ecx.getLsbD 25 = true → words.edx.getLsbD 26 = true →
    Sys2Proof.core.run n t = .next u → exec i u = .next v →
    v.faults = u.faults ∨
      ∃ a, v.faults = { thread := u.thread, issued := .invocation i, cause := .memoryFault, info := .base a } :: u.faults

/-- R95 (the spec's decision D9): without the premise the extensions and the table are independent: what the table holds decides nothing an
operation other than the query does. -/
def Obligations.TableDecidesNoOtherOperation : Prop :=
  ∀ (i : Instr) (s t : State) (es : List CpuidEntry) (rest : Option CapWords),
    (∀ leaf subleaf, i ≠ .queryCPUID leaf subleaf) → exec i s = .next t →
    exec i { s with cfg := { s.cfg with cpuid := es, cpuidRest := rest } }
      = .next { t with cfg := { t.cfg with cpuid := es, cpuidRest := rest } }

/-! ### The Block XOR Combiner (41_xor.md) -/

/-- `xor2` (R101): under the caller's contract it completes, byte `k` at `dst` is the exclusive or of bytes `k` of the
sources as they were before, and nothing else changes but the list of completed invocations. -/
def Obligations.Xor2StoresTheExclusiveOrOfItsSources : Prop :=
  ∀ (a b dst : Nat) (s : State), XorReady s.cfg (.xor2 a b dst) →
    ∃ t, exec (.xor2 a b dst) s = .next t
      ∧ StoresAt dst (fun k => Memory.byte s.mem (a + k) ^^^ Memory.byte s.mem (b + k)) s.mem t.mem
      ∧ OnlyResult s t ∧ t.draws = s.draws
      ∧ t.ended = { thread := s.thread, instr := .xor2 a b dst, ending := .done } :: s.ended

/-- `xor3` (R102), likewise. -/
def Obligations.Xor3StoresTheExclusiveOrOfItsSources : Prop :=
  ∀ (a b c dst : Nat) (s : State), XorReady s.cfg (.xor3 a b c dst) →
    ∃ t, exec (.xor3 a b c dst) s = .next t
      ∧ StoresAt dst
          (fun k => Memory.byte s.mem (a + k) ^^^ Memory.byte s.mem (b + k) ^^^ Memory.byte s.mem (c + k)) s.mem t.mem
      ∧ OnlyResult s t ∧ t.draws = s.draws
      ∧ t.ended = { thread := s.thread, instr := .xor3 a b c dst, ending := .done } :: s.ended

/-- `xor4` (R103), likewise, grouped as the source groups it. -/
def Obligations.Xor4StoresTheExclusiveOrOfItsSources : Prop :=
  ∀ (a b c d dst : Nat) (s : State), XorReady s.cfg (.xor4 a b c d dst) →
    ∃ t, exec (.xor4 a b c d dst) s = .next t
      ∧ StoresAt dst
          (fun k => (Memory.byte s.mem (a + k) ^^^ Memory.byte s.mem (b + k))
            ^^^ (Memory.byte s.mem (c + k) ^^^ Memory.byte s.mem (d + k))) s.mem t.mem
      ∧ OnlyResult s t ∧ t.draws = s.draws
      ∧ t.ended = { thread := s.thread, instr := .xor4 a b c d dst, ending := .done } :: s.ended

/-- R51: `RegionsOk` is the discipline pair by pair, which for the XOR operations says that any two operand addresses are
equal or a Block apart: a destination identical to one or more sources, and sources at one address, keep it. Every such
form gives the value its operation computes from the bytes that were in memory before, the forms the rule names among
them. -/
def Obligations.IdenticalRegionsAreWellDefined : Prop :=
  (∀ i : Instr, regionsOk (regions i) = true ↔ Disciplined (regions i))
  ∧ (∀ a b dst : Nat, Disciplined (regions (.xor2 a b dst)) ↔ [a, b, dst].Pairwise AddressesApart)
  ∧ (∀ a b c dst : Nat, Disciplined (regions (.xor3 a b c dst)) ↔ [a, b, c, dst].Pairwise AddressesApart)
  ∧ (∀ a b c d dst : Nat, Disciplined (regions (.xor4 a b c d dst)) ↔ [a, b, c, d, dst].Pairwise AddressesApart)
  ∧ (∀ (a b dst : Nat) (s : State), s.cfg.hasSimd = true → (∀ r ∈ regions (.xor2 a b dst), Accessible s.cfg r) →
    [a, b, dst].Pairwise AddressesApart →
    ∃ t, exec (.xor2 a b dst) s = .next t
      ∧ StoresAt dst (fun k => Memory.byte s.mem (a + k) ^^^ Memory.byte s.mem (b + k)) s.mem t.mem)
  ∧ (∀ (a b c dst : Nat) (s : State), s.cfg.hasSimd = true → (∀ r ∈ regions (.xor3 a b c dst), Accessible s.cfg r) →
    [a, b, c, dst].Pairwise AddressesApart →
    ∃ t, exec (.xor3 a b c dst) s = .next t
      ∧ StoresAt dst (fun k => Memory.byte s.mem (a + k) ^^^ Memory.byte s.mem (b + k) ^^^ Memory.byte s.mem (c + k))
          s.mem t.mem)
  ∧ (∀ (a b c d dst : Nat) (s : State), s.cfg.hasSimd = true →
    (∀ r ∈ regions (.xor4 a b c d dst), Accessible s.cfg r) → [a, b, c, d, dst].Pairwise AddressesApart →
    ∃ t, exec (.xor4 a b c d dst) s = .next t
      ∧ StoresAt dst (fun k => (Memory.byte s.mem (a + k) ^^^ Memory.byte s.mem (b + k))
          ^^^ (Memory.byte s.mem (c + k) ^^^ Memory.byte s.mem (d + k))) s.mem t.mem)
  ∧ (∀ (a : Nat) (s : State), XorReady s.cfg (.xor2 a a a) →
    ∃ t, exec (.xor2 a a a) s = .next t ∧ StoresAt a (fun _ => 0) s.mem t.mem)
  ∧ (∀ (a b : Nat) (s : State), XorReady s.cfg (.xor4 a a b b a) →
    ∃ t, exec (.xor4 a a b b a) s = .next t ∧ StoresAt a (fun _ => 0) s.mem t.mem)
  ∧ (∀ (p dst : Nat) (s : State), XorReady s.cfg (.xor3 p p p dst) →
    ∃ t, exec (.xor3 p p p dst) s = .next t ∧ StoresAt dst (fun k => Memory.byte s.mem (p + k)) s.mem t.mem)

/-- R106 (derived by the spec from R101 to R105): the six identities, each for all Block values, at equal or at different addresses. -/
def Obligations.XorIdentitiesHold : Prop :=
  (∀ (s : State) (a b dst : Nat), XorReady s.cfg (.xor2 a b dst) →
    storedBlock (.xor2 a b dst) dst s = storedBlock (.xor2 b a dst) dst s)
  ∧ (∀ (s : State) (a b dst : Nat), XorReady s.cfg (.xor2 a b dst) →
    Memory.readBlock s.mem a = Memory.readBlock s.mem b → storedBlock (.xor2 a b dst) dst s = some zeroBlock)
  ∧ (∀ (s : State) (a b dst : Nat), XorReady s.cfg (.xor2 a b dst) →
    Memory.readBlock s.mem b = zeroBlock → storedBlock (.xor2 a b dst) dst s = some (Memory.readBlock s.mem a))
  ∧ (∀ (s : State) (a b c d dst : Nat), XorReady s.cfg (.xor4 a b c d dst) →
    storedBlock (.xor4 a b c d dst) dst s = storedBlock (.xor4 d c b a dst) dst s)
  ∧ (∀ (s : State) (a b c d dst : Nat), XorReady s.cfg (.xor4 a b c d dst) →
    Memory.readBlock s.mem a = Memory.readBlock s.mem b → Memory.readBlock s.mem c = Memory.readBlock s.mem d →
    storedBlock (.xor4 a b c d dst) dst s = some zeroBlock)
  ∧ (∀ (s : State) (a b c dst : Nat), XorReady s.cfg (.xor3 a b c dst) →
    Memory.readBlock s.mem c = zeroBlock → storedBlock (.xor3 a b c dst) dst s = storedBlock (.xor2 a b dst) dst s)

/-- R104: result bit `j` of byte `k` depends only on bit `j` of byte `k` of each source: two invocations, of states and
at addresses that may differ, whose sources agree in that bit leave the same bit. -/
def Obligations.XorLanesAreSingleBits : Prop :=
  ∀ (s s' t t' : State) (k j : Nat), k < 16 →
    let same := fun p p' => (Memory.byte s.mem (p + k)).getLsbD j = (Memory.byte s'.mem (p' + k)).getLsbD j
    let left := fun p p' => (Memory.byte t.mem (p + k)).getLsbD j = (Memory.byte t'.mem (p' + k)).getLsbD j
    (∀ a b dst a' b' dst', XorReady s.cfg (.xor2 a b dst) → XorReady s'.cfg (.xor2 a' b' dst') →
      same a a' → same b b' → exec (.xor2 a b dst) s = .next t → exec (.xor2 a' b' dst') s' = .next t' → left dst dst')
    ∧ (∀ a b c dst a' b' c' dst', XorReady s.cfg (.xor3 a b c dst) → XorReady s'.cfg (.xor3 a' b' c' dst') →
      same a a' → same b b' → same c c' →
      exec (.xor3 a b c dst) s = .next t → exec (.xor3 a' b' c' dst') s' = .next t' → left dst dst')
    ∧ (∀ a b c d dst a' b' c' d' dst',
      XorReady s.cfg (.xor4 a b c d dst) → XorReady s'.cfg (.xor4 a' b' c' d' dst') →
      same a a' → same b b' → same c c' → same d d' →
      exec (.xor4 a b c d dst) s = .next t → exec (.xor4 a' b' c' d' dst') s' = .next t' → left dst dst')

/-! ### The AES Round Function (42_aes.md) -/

/-- R121 (general knowledge the spec supplies, G4): multiplication by `x`, the check values, and that `mul2` and `mul3` are the field's products by 2 and 3;
multiplication distributes over the field's addition on both sides. -/
def Obligations.FieldMultiplicationIsBilinear : Prop :=
  (∀ a b : Byte, xtime (a ^^^ b) = xtime a ^^^ xtime b)
  ∧ (∀ a b c : Byte, gmul (a ^^^ b) c = gmul a c ^^^ gmul b c)
  ∧ (∀ a b c : Byte, gmul a (b ^^^ c) = gmul a b ^^^ gmul a c)
  ∧ (∀ a : Byte, mul2 a = gmul a 0x02 ∧ mul3 a = gmul a 0x03)
  ∧ xtime 0x57 = 0xAE ∧ xtime 0xAE = 0x47 ∧ xtime 0x47 = 0x8E ∧ xtime 0x8E = 0x07
  ∧ gmul 0x57 0x13 = 0xFE ∧ gmul 0x57 0x83 = 0xC1

/-- R122 (general knowledge the spec supplies, G1): the table is its definition: the field inverse, then the affine map with constant `0x63`; it is a permutation
of the byte values; and `SubBytes` applies it to each byte on its own. -/
def Obligations.SubstitutionIsInverseThenAffine : Prop :=
  (∀ a : Byte, ∃ b : Byte, (a = 0 → b = 0) ∧ (a ≠ 0 → gmul a b = 1)
    ∧ sbox a = b ^^^ b.rotateLeft 1 ^^^ b.rotateLeft 2 ^^^ b.rotateLeft 3 ^^^ b.rotateLeft 4 ^^^ 0x63)
  ∧ (∀ a b : Byte, sbox a = sbox b → a = b)
  ∧ (∀ (b : Block) k (_ : k < 16), (subBytes b)[k] = sbox b[k])

/-- R123 (general knowledge the spec supplies, G2): row `r` of the array `s[r][c] = B[r + 4c]` rotates left by `r` columns; the index table; and the rotation
commutes with the substitution. -/
def Obligations.RowRotationMovesRowsLeft : Prop :=
  (∀ (b : Block) r c (_ : r < 4) (_ : c < 4),
    (shiftRows b)[r + 4 * c] = b[r + 4 * ((c + r) % 4)])
  ∧ (List.range 16).map shiftRowsIndex = [0, 5, 10, 15, 4, 9, 14, 3, 8, 13, 2, 7, 12, 1, 6, 11]
  ∧ (∀ b : Block, shiftRows (subBytes b) = subBytes (shiftRows b))

/-- R124 (general knowledge the spec supplies, G3): the four bytes of a mixed column; a column of four equal bytes maps to itself; and the examples. -/
def Obligations.ColumnMixingMixesEachColumn : Prop :=
  (∀ (b : Block) c (_ : c < 4),
    (mixColumns b)[4 * c] = mul2 b[4 * c] ^^^ mul3 b[4 * c + 1] ^^^ b[4 * c + 2] ^^^ b[4 * c + 3]
    ∧ (mixColumns b)[4 * c + 1] = b[4 * c] ^^^ mul2 b[4 * c + 1] ^^^ mul3 b[4 * c + 2] ^^^ b[4 * c + 3]
    ∧ (mixColumns b)[4 * c + 2] = b[4 * c] ^^^ b[4 * c + 1] ^^^ mul2 b[4 * c + 2] ^^^ mul3 b[4 * c + 3]
    ∧ (mixColumns b)[4 * c + 3] = mul3 b[4 * c] ^^^ b[4 * c + 1] ^^^ b[4 * c + 2] ^^^ mul2 b[4 * c + 3])
  ∧ (∀ (b : Block) (v : Byte) c (_ : c < 4), b[4 * c] = v → b[4 * c + 1] = v → b[4 * c + 2] = v → b[4 * c + 3] = v →
    (mixColumns b)[4 * c] = v ∧ (mixColumns b)[4 * c + 1] = v ∧ (mixColumns b)[4 * c + 2] = v
      ∧ (mixColumns b)[4 * c + 3] = v)
  ∧ mixColumns #v[0xdb, 0x13, 0x53, 0x45, 0xf2, 0x0a, 0x22, 0x5c, 1, 1, 1, 1, 0xc6, 0xc6, 0xc6, 0xc6]
    = #v[0x8e, 0x4d, 0xa1, 0xbc, 0x9f, 0xdc, 0x58, 0x9d, 1, 1, 1, 1, 0xc6, 0xc6, 0xc6, 0xc6]

/-- The published single rounds K1, K2 and K4 of 95_test_vectors.md section 2. -/
def Obligations.PublishedRoundsAreReproduced : Prop :=
  aesRound #v[0x19, 0x3d, 0xe3, 0xbe, 0xa0, 0xf4, 0xe2, 0x2b, 0x9a, 0xc6, 0x8d, 0x2a, 0xe9, 0xf8, 0x48, 0x08]
      #v[0xa0, 0xfa, 0xfe, 0x17, 0x88, 0x54, 0x2c, 0xb1, 0x23, 0xa3, 0x39, 0x39, 0x2a, 0x6c, 0x76, 0x05]
    = #v[0xa4, 0x9c, 0x7f, 0xf2, 0x68, 0x9f, 0x35, 0x2b, 0x6b, 0x5b, 0xea, 0x43, 0x02, 0x6a, 0x50, 0x49]
  ∧ aesRound #v[0x00, 0x10, 0x20, 0x30, 0x40, 0x50, 0x60, 0x70, 0x80, 0x90, 0xa0, 0xb0, 0xc0, 0xd0, 0xe0, 0xf0]
      #v[0xd6, 0xaa, 0x74, 0xfd, 0xd2, 0xaf, 0x72, 0xfa, 0xda, 0xa6, 0x78, 0xf1, 0xd6, 0xab, 0x76, 0xfe]
    = #v[0x89, 0xd8, 0x10, 0xe8, 0x85, 0x5a, 0xce, 0x68, 0x2d, 0x18, 0x43, 0xd8, 0xcb, 0x12, 0x8f, 0xe4]
  ∧ aesRound #v[0x5d, 0x47, 0x53, 0x5d, 0x72, 0x6f, 0x74, 0x63, 0x65, 0x56, 0x74, 0x73, 0x65, 0x54, 0x5b, 0x7b]
      #v[0x5d, 0x6e, 0x6f, 0x72, 0x65, 0x75, 0x47, 0x5b, 0x29, 0x79, 0x61, 0x68, 0x53, 0x28, 0x69, 0x48]
    = #v[0x95, 0xe5, 0xd7, 0xde, 0x58, 0x4b, 0x10, 0x8b, 0xc5, 0xa3, 0xdb, 0x9f, 0x2f, 0x1c, 0x31, 0xa8]

/-- R126 and R133 (derived by the spec, G12): the round is a bijection of the states for a fixed key, and so is each operation for fixed key material. -/
def Obligations.RoundAndOperationsAreBijections : Prop :=
  (∀ k : Block, Function.Bijective fun st => aesRound st k)
  ∧ (∀ i j l : Block, Function.Bijective fun st => aes4Block st i j l)
  ∧ (∀ i j l : Block, Function.Bijective fun st => aes10Block st i j l)

/-- R137 (derived by the spec): after one round each output byte depends on four bytes of the state, one of each column, and on its own key byte. -/
def Obligations.RoundByteDependsOnFourStateBytes : Prop :=
  ∀ (s s' k k' : Block) (n : Nat) (_ : n < 16),
    (∀ r (_ : r < 4), s[r + 4 * ((n / 4 + r) % 4)] = s'[r + 4 * ((n / 4 + r) % 4)]) → k[n] = k'[n] →
    (aesRound s k)[n] = (aesRound s' k')[n]

/-- R134 (derived by the spec): in `aes4`, a change of one byte of `L` changes at most one column of the result. -/
def Obligations.OneByteOfTheThirdKeyChangesOneColumn : Prop :=
  ∀ (s i j l l' : Block) (n : Nat) (_ : n < 16), (∀ k (_ : k < 16), k ≠ n → l[k] = l'[k]) →
    ∃ c, c < 4 ∧ ∀ k (_ : k < 16), k / 4 ≠ c → (aes4Block s i j l)[k] = (aes4Block s i j l')[k]

/-- `aes4` (R127): under the caller's contract it completes, the Block at `state` becomes four full rounds of it with
the keys `J`, `I`, `L`, zero, and nothing else changes but the list of completed invocations. -/
def Obligations.Aes4StoresFourRounds : Prop :=
  ∀ (state key : Nat) (s : State), AesReady s.cfg (.aes4 state key) →
    let i := Memory.readBlock s.mem key
    let j := Memory.readBlock s.mem (key + 16)
    let l := Memory.readBlock s.mem (key + 32)
    ∃ t, exec (.aes4 state key) s = .next t
      ∧ StoresBlock state
          (aesRound (aesRound (aesRound (aesRound (Memory.readBlock s.mem state) j) i) l) zeroBlock) s.mem t.mem
      ∧ OnlyResult s t ∧ t.draws = s.draws
      ∧ t.ended = { thread := s.thread, instr := .aes4 state key, ending := .done } :: s.ended

/-- `aes10` (R128): likewise with ten full rounds, the n-th keyed with `I`, `J` or `L` as `n mod 3` is 1, 2 or 0. -/
def Obligations.Aes10StoresTenRounds : Prop :=
  ∀ (state key : Nat) (s : State), AesReady s.cfg (.aes10 state key) →
    let keyOfRound := fun n => Memory.readBlock s.mem (key + 16 * ((n + 2) % 3))
    ∃ t, exec (.aes10 state key) s = .next t
      ∧ StoresBlock state
          ([1, 2, 3, 4, 5, 6, 7, 8, 9, 10].foldl (fun x n => aesRound x (keyOfRound n)) (Memory.readBlock s.mem state))
          s.mem t.mem
      ∧ OnlyResult s t ∧ t.draws = s.draws
      ∧ t.ended = { thread := s.thread, instr := .aes10 state key, ending := .done } :: s.ended

/-- R133 (its last clause derived by the spec from R22): the result of an AES operation depends on the 16 and 48 bytes read and on nothing else: not on the addresses,
the alignment, the rest of the state, or the thread. -/
def Obligations.AesResultDependsOnlyOnTheBytesRead : Prop :=
  ∀ (s s' : State) (st key st' key' : Nat),
    (∀ k, k < 16 → Memory.byte s.mem (st + k) = Memory.byte s'.mem (st' + k)) →
    (∀ k, k < 48 → Memory.byte s.mem (key + k) = Memory.byte s'.mem (key' + k)) →
    (AesReady s.cfg (.aes4 st key) → AesReady s'.cfg (.aes4 st' key') →
      ∃ b, storedBlock (.aes4 st key) st s = some b ∧ storedBlock (.aes4 st' key') st' s' = some b)
    ∧ (AesReady s.cfg (.aes10 st key) → AesReady s'.cfg (.aes10 st' key') →
      ∃ b, storedBlock (.aes10 st key) st s = some b ∧ storedBlock (.aes10 st' key') st' s' = some b)

/-- The contract of a fallback fixes its result to the last byte: any procedure that meets it leaves the memory the
operation itself leaves. -/
def Obligations.EveryFallbackLeavesTheOperationsMemory : Prop :=
  (∀ (p : Memory → Nat → Nat → Memory) (s t : State) (st key : Nat), FallbackContract aes4Block p →
    AesReady s.cfg (.aes4 st key) → exec (.aes4 st key) s = .next t → SameBytes t.mem (p s.mem st key))
  ∧ (∀ (p : Memory → Nat → Nat → Memory) (s t : State) (st key : Nat), FallbackContract aes10Block p →
    AesReady s.cfg (.aes10 st key) → exec (.aes10 st key) s = .next t → SameBytes t.mem (p s.mem st key))

/-! ### What every operation leaves -/

/-- Whatever one invocation does, it changes no byte outside its destination Block, and leaves the configuration, the
invocations in flight with their registers, the running thread and the inputs to come. -/
def Obligations.OperationsChangeOnlyTheirDestination : Prop :=
  ∀ (i : Instr) (s t : State), exec i s = .next t →
    t.cfg = s.cfg ∧ t.active = s.active ∧ t.thread = s.thread ∧ t.inputs = s.inputs
    ∧ ∀ a, (∀ dst, destination i = some dst → a < dst ∨ dst + 16 ≤ a) → Memory.byte t.mem a = Memory.byte s.mem a

/-- R47: the regions each operation reads and writes; what an invocation whose regions keep the discipline stores depends
on no byte outside those it reads (where they break it, it stores a drawn value); an invocation writes its sixteen bytes and no others, and an invocation that faults writes nothing. -/
def Obligations.EachOperationMovesExactlyItsBytes : Prop :=
  (∀ (leaf subleaf : Word) (a b c d dst st key : Nat),
    regions (.queryCPUID leaf subleaf) = []
    ∧ regions (.xor2 a b dst) = [⟨a, 16, true, false⟩, ⟨b, 16, true, false⟩, ⟨dst, 16, false, true⟩]
    ∧ regions (.xor3 a b c dst) =
      [⟨a, 16, true, false⟩, ⟨b, 16, true, false⟩, ⟨c, 16, true, false⟩, ⟨dst, 16, false, true⟩]
    ∧ regions (.xor4 a b c d dst) =
      [⟨a, 16, true, false⟩, ⟨b, 16, true, false⟩, ⟨c, 16, true, false⟩, ⟨d, 16, true, false⟩, ⟨dst, 16, false, true⟩]
    ∧ ∀ i ∈ [Instr.aes4 st key, Instr.aes10 st key], regions i = [⟨st, 16, true, true⟩, ⟨key, 48, true, false⟩])
  ∧ (∀ (i : Instr) (s s' t t' : State), exec i s = .next t → exec i s' = .next t' →
    s'.cfg = s.cfg → Disciplined (regions i) →
    (∀ r ∈ regions i, r.reads = true → ∀ k, k < r.len →
      Memory.byte s.mem (r.base + k) = Memory.byte s'.mem (r.base + k)) →
    t.faults = s.faults → ∀ r ∈ regions i, r.writes = true →
    t'.faults = s'.faults ∧ ∀ k, k < r.len → Memory.byte t.mem (r.base + k) = Memory.byte t'.mem (r.base + k))
  ∧ (∀ (i : Instr) (s t : State), exec i s = .next t →
    (∀ a, (∀ r ∈ regions i, r.writes = true → a < r.base ∨ r.base + r.len ≤ a) →
      Memory.byte t.mem a = Memory.byte s.mem a)
    ∧ (t.faults ≠ s.faults → t.mem = s.mem))

/-- R54: no operation whose regions keep the discipline writes any byte of the key material, or of a source that is not
also its destination. -/
def Obligations.KeyMaterialAndSourcesAreNotWritten : Prop :=
  ∀ (i : Instr) (s t : State) (r : Region), exec i s = .next t → Disciplined (regions i) → r ∈ regions i →
    r.writes = false → (∀ dst, destination i = some dst → r.len = 16 → r.base ≠ dst) →
    ∀ k, k < r.len → Memory.byte t.mem (r.base + k) = Memory.byte s.mem (r.base + k)

/-- R52 and R53 (the spec's decisions D14 and D15): where the regions break the discipline and no fault applies, the invocation completes, the sixteen
destination bytes hold a drawn value, and nothing else changes but the count of draws and the list of completed
invocations. -/
def Obligations.BrokenDisciplineDrawsTheDestination : Prop :=
  ∀ (i : Instr) (dst : Nat) (s : State), destination i = some dst → capable s.cfg i = true →
    (∀ r ∈ regions i, Accessible s.cfg r) → ¬Disciplined (regions i) →
    ∃ t, exec i s = .next t ∧ StoresBlock dst (Config.draw s.draws) s.mem t.mem
      ∧ OnlyResult s t ∧ t.draws = s.draws + 1
      ∧ t.ended = { thread := s.thread, instr := i, ending := .undefined } :: s.ended

/-- R192 (derived by the spec from R8): every invocation ends: it completes, with `Done` or `Undefined`, or it faults and changes nothing but the
fault record. -/
def Obligations.EveryInvocationEnds : Prop :=
  ∀ (i : Instr) (s : State), ∃ t, exec i s = .next t ∧
    ((t.faults = s.faults ∧ ∃ e, t.ended = { thread := s.thread, instr := i, ending := e } :: s.ended)
      ∨ (t.ended = s.ended ∧ ∃ c n, t = faulted i c n s))

/-! ### Faults (60_exceptions.md) -/

/-- Without the AES extension the AES operations fault (R151), reading and writing nothing, the record of the opcode being
the whole effect (R150, R159, the spec's decision D11; log entry 11), whatever else is wrong with the invocation (R158, the
spec's decision D12); with it they raise this cause only where the other extension is missing. -/
def Obligations.MissingAesExtensionFaults : Prop :=
  ∀ (s : State) (st key : Nat),
    (s.cfg.hasAes = false →
      exec (.aes4 st key) s = .next (faulted (.aes4 st key) .illegalInstruction (.op 0x05) s)
      ∧ exec (.aes10 st key) s = .next (faulted (.aes10 st key) .illegalInstruction (.op 0x06) s))
    ∧ (s.cfg.hasAes = true → ∀ i ∈ [Instr.aes4 st key, Instr.aes10 st key], ∀ t n, exec i s = .next t →
      t = faulted i .illegalInstruction n s → s.cfg.hasSimd = false)

/-- R152 (the spec's decision D10): without SIMD all five memory operations fault, each recording its opcode, whatever
else is wrong with the invocation; with both extensions this cause is never raised. -/
def Obligations.MissingSimdExtensionFaults : Prop :=
  ∀ s : State,
    (s.cfg.hasSimd = false → ∀ a b c d dst st key,
      exec (.xor2 a b dst) s = .next (faulted (.xor2 a b dst) .illegalInstruction (.op 0x02) s)
      ∧ exec (.xor3 a b c dst) s = .next (faulted (.xor3 a b c dst) .illegalInstruction (.op 0x03) s)
      ∧ exec (.xor4 a b c d dst) s = .next (faulted (.xor4 a b c d dst) .illegalInstruction (.op 0x04) s)
      ∧ exec (.aes4 st key) s = .next (faulted (.aes4 st key) .illegalInstruction (.op 0x05) s)
      ∧ exec (.aes10 st key) s = .next (faulted (.aes10 st key) .illegalInstruction (.op 0x06) s))
    ∧ (s.cfg.hasSimd = true → s.cfg.hasAes = true → ∀ i t, exec i s = .next t → t.faults = s.faults
      ∨ ∃ a, t.faults = { thread := s.thread, issued := .invocation i, cause := .memoryFault, info := .base a } :: s.faults)

/-- R154 (the spec's decision D13): where the extensions are present, the first region in operand order that is not accessible is reported by its
base address and nothing is read or written, whether or not the discipline is kept; where all are accessible, nothing
faults. -/
def Obligations.FirstInaccessibleRegionFaults : Prop :=
  ∀ (i : Instr) (s : State), capable s.cfg i = true →
    (∀ before r after, regions i = before ++ r :: after → (∀ q ∈ before, Accessible s.cfg q) → ¬Accessible s.cfg r →
      exec i s = .next (faulted i .memoryFault (.base r.base) s))
    ∧ ((∀ r ∈ regions i, Accessible s.cfg r) → ∃ t, exec i s = .next t ∧ t.faults = s.faults)

/-- What is not a fault (R155). Where the extension is present and the bytes named are accessible, whatever the
alignment, the overlap and the data, the invocation completes, and its outcome is `Undefined` exactly where the regions
break the discipline, two sources that overlap and an AES state that meets its key material among them (the spec's
decisions D14 and D15; log entry 16); and the query answers four words for every pair. -/
def Obligations.NothingElseIsAFault : Prop :=
  (∀ (i : Instr) (s : State), capable s.cfg i = true → (∀ r ∈ regions i, Accessible s.cfg r) →
    ∃ t e, exec i s = .next t ∧ t.faults = s.faults
      ∧ t.ended = { thread := s.thread, instr := i, ending := e } :: s.ended
      ∧ (e = .undefined ↔ ¬Disciplined (regions i)))
  ∧ (∀ (leaf subleaf : Word) (s : State), ∃ t words, exec (.queryCPUID leaf subleaf) s = .next t ∧ t.faults = s.faults
    ∧ t.ended = { thread := s.thread, instr := .queryCPUID leaf subleaf, ending := .returned words } :: s.ended)

/-- R159 (the spec's decision D11): a fault changes nothing but the record; it stops the issuing thread and no other, for good; a stopped thread's
issues have no effect; and no state after a recorded fault is final. That a stopped thread's issue is dropped and the
step goes on is the model's choice (log entry 7), and so is that the thread stays stopped through a reset (log
entry 11). -/
def Obligations.FaultIsCleanAndStopsItsThread : Prop :=
  (∀ (i : Instr) (s t : State), exec i s = .next t → t.faults ≠ s.faults → ∃ c n, t = faulted i c n s)
  ∧ (∀ (i : Instr) (c : Cause) (n : Info) (s : State) (u : ThreadId),
      (faulted i c n s).stopped u = (s.stopped u || decide (u = s.thread)))
  ∧ (∀ (s s' : State) (u : ThreadId), step s = .next s' → s.stopped u = true → s'.stopped u = true)
  ∧ (∀ (s : State) (u : ThreadId) (d : Descriptor) (rest : List Input), s.stopped u = true →
      (s.inputs = .call u d :: rest ∨ s.inputs = .start u d :: rest) → step s = .next { s with inputs := rest })
  ∧ (∀ (s s' : State) (n : Nat), s.faults ≠ [] → Sys2Proof.core.run n s = .next s' → ¬Final s')

/-- R31 (the spec's decision D11): the fault record is empty at launch, every fault adds to it, nothing removes from it, and no operation reads
it. -/
def Obligations.FaultRecordOnlyGrows : Prop :=
  State.reset.faults = []
  ∧ (∀ s s' : State, step s = .next s' → ∃ new, s'.faults = new ++ s.faults)
  ∧ (∀ (i : Instr) (s t : State) (fs : List FaultEntry), exec i s = .next t →
      ∃ new, t.faults = new ++ s.faults ∧ exec i { s with faults := fs } = .next { t with faults := new ++ fs })

/-! ### Memory (20_memory.md) -/

/-- R42 (the spec's decision D13): a write sets byte `i` at `addr + i` for the sixteen values of `i` and changes no other byte; and the Block just
written reads back. -/
def Obligations.BlockWriteSetsSixteenBytes : Prop :=
  ∀ (m : Memory) (a : Nat) (v : Block),
    (∀ k (_ : k < 16), Memory.byte (Memory.writeBlock m a v) (a + k) = v[k])
    ∧ (∀ x, (x < a ∨ a + 16 ≤ x) → Memory.byte (Memory.writeBlock m a v) x = Memory.byte m x)
    ∧ Memory.readBlock (Memory.writeBlock m a v) a = v

/-- The caller's own accesses: inside the address space and clear of the invocations in flight, a write stores its bytes
and a read changes nothing; past the top of the address space either stops the machine. That these accesses are inputs
is the model's choice (log entry 7), and so is that they are not held to `Readable` and `Writable` and that passing the
top stops the machine (log entry 12). -/
def Obligations.CallerOwnsItsMemory : Prop :=
  (∀ (s : State) (a : Nat) (bytes : List Byte) (rest : List Input), s.inputs = .callerWrite a bytes :: rest →
    a + bytes.length ≤ 2 ^ 64 → NoConflict [callerWrites a bytes.length] s.active →
    ∃ t, step s = .next t
      ∧ (∀ k (_ : k < bytes.length), Memory.byte t.mem (a + k) = bytes[k])
      ∧ (∀ x, (x < a ∨ a + bytes.length ≤ x) → Memory.byte t.mem x = Memory.byte s.mem x)
      ∧ t = { s with inputs := rest, mem := t.mem })
  ∧ (∀ (s : State) (a n : Nat) (rest : List Input), s.inputs = .callerRead a n :: rest →
    a + n ≤ 2 ^ 64 → NoConflict [callerReads a n] s.active → step s = .next { s with inputs := rest })
  ∧ (∀ (s : State) (a n : Nat) (bytes : List Byte) (rest : List Input),
    (s.inputs = .callerWrite a bytes :: rest ∧ 2 ^ 64 < a + bytes.length)
      ∨ (s.inputs = .callerRead a n :: rest ∧ 2 ^ 64 < a + n) →
    step s = .fault .callerOutsideAddressSpace)

/-! ### Invocations in flight (20_memory.md section 7) -/

/-- A start that raises no fault and conflicts with nothing puts the invocation in flight, with its registers loaded
from memory, and changes nothing else; a start that faults records its fault, puts nothing in flight, and changes
nothing else, whatever is in flight. That the checks and the reading happen at the start is the model's choice (log
entry 7), and so is that an invocation which faults conflicts with nothing (log entry 12). -/
def Obligations.StartPutsTheInvocationInFlight : Prop :=
  (∀ (s : State) (t : ThreadId) (d : Descriptor) (rest : List Input) (i : Instr),
    s.inputs = .start t d :: rest → MayIssue s t → decode d = .ok i → trapOf s.cfg i = none →
    NoConflict (regions i) s.active →
    step s = .next { s with
      inputs := rest, thread := t,
      active := s.active ++ [{ thread := t, instr := i, regs := loadOf i s.mem }] })
  ∧ (∀ (s : State) (t : ThreadId) (d : Descriptor) (rest : List Input) (i : Instr) (p : Trap),
    s.inputs = .start t d :: rest → MayIssue s t → decode d = .ok i → trapOf s.cfg i = some p →
    step s = .next (faulted i p.cause p.info { s with inputs := rest, thread := t }))

/-- R59 and R164 (the spec's decision D17): invocations of different threads are in flight together without limit.
However many threads, each of which may issue, start a query one after another, all their invocations are in flight at
the end. -/
def Obligations.AnyNumberOfThreadsMayBeInFlight : Prop :=
  ∀ (s : State) (ts : List ThreadId) (leaf subleaf : Word), ts.Nodup → (∀ t ∈ ts, MayIssue s t) →
    ∃ s', Sys2Proof.core.run ts.length
        { s with inputs := ts.map fun t => .start t (encode (.queryCPUID leaf subleaf)) } = .next s'
      ∧ s'.active.map (fun f => f.thread) = s.active.map (fun f => f.thread) ++ ts
      ∧ s'.mem = s.mem ∧ s'.faults = s.faults ∧ s'.ended = s.ended

/-- R60 (the spec's decision D17): an invocation that would run, or a caller access, that conflicts with an invocation in flight is refused. -/
def Obligations.ConflictingExecutionIsRefused : Prop :=
  (∀ (s : State) (t : ThreadId) (d : Descriptor) (rest : List Input) (i : Instr),
    (s.inputs = .call t d :: rest ∨ s.inputs = .start t d :: rest) → MayIssue s t → decode d = .ok i →
    trapOf s.cfg i = none → ¬NoConflict (regions i) s.active → step s = .refused .conflict)
  ∧ (∀ (s : State) (a n : Nat) (rest : List Input), s.inputs = .callerRead a n :: rest → a + n ≤ 2 ^ 64 →
    ¬NoConflict [callerReads a n] s.active → step s = .refused .conflict)
  ∧ (∀ (s : State) (a : Nat) (bytes : List Byte) (rest : List Input), s.inputs = .callerWrite a bytes :: rest →
    a + bytes.length ≤ 2 ^ 64 → ¬NoConflict [callerWrites a bytes.length] s.active → step s = .refused .conflict)

/-- A thread issues nothing while its own invocation is in flight (R58), and only what is in flight can finish: the
model refuses the inputs that say otherwise (log entry 7). -/
def Obligations.ThreadRunsOneInvocationAtATime : Prop :=
  (∀ (s : State) (t : ThreadId) (d : Descriptor) (rest : List Input),
    (s.inputs = .call t d :: rest ∨ s.inputs = .start t d :: rest) → s.stopped t = false → s.busy t = true →
    step s = .refused .threadBusy)
  ∧ (∀ (s : State) (t : ThreadId) (rest : List Input), s.inputs = .finish t :: rest → s.busy t = false →
    step s = .refused .nothingInFlight)

/-- What the reading stage of each operation leaves in the transient registers (R23, R44, R90, R100, R136): the named
ones hold the inputs or the Blocks read, in operand order, and the others hold no value. The registers' names are the
spec's decision D23, and the leaf in `EAX` and the subleaf in `ECX` its general knowledge (log entry 14); that `aes10`
loads `ZERO` into `X4` too is the model's choice (log entry 15). -/
def Obligations.ReadingStageLoadsTheNamedRegisters : Prop :=
  ∀ (m : Memory) (leaf subleaf : Word) (a b c d dst st key : Nat),
    loadOf (.queryCPUID leaf subleaf) m = { Regs.empty with eax := some leaf, ecx := some subleaf }
    ∧ loadOf (.xor2 a b dst) m =
      { Regs.empty with x0 := some (Memory.readBlock m a), x1 := some (Memory.readBlock m b) }
    ∧ loadOf (.xor3 a b c dst) m =
      { Regs.empty with x0 := some (Memory.readBlock m a), x1 := some (Memory.readBlock m b),
                        x2 := some (Memory.readBlock m c) }
    ∧ loadOf (.xor4 a b c d dst) m =
      { Regs.empty with x0 := some (Memory.readBlock m a), x1 := some (Memory.readBlock m b),
                        x2 := some (Memory.readBlock m c), x3 := some (Memory.readBlock m d) }
    ∧ (∀ i ∈ [Instr.aes4 st key, Instr.aes10 st key], loadOf i m =
      { Regs.empty with x0 := some (Memory.readBlock m st), x1 := some (Memory.readBlock m key),
                        x2 := some (Memory.readBlock m (key + 16)), x3 := some (Memory.readBlock m (key + 32)),
                        x4 := some zeroBlock })

/-- The key material is three Blocks in a row, with no padding and no header (R44): `I` at its first byte, `J` sixteen
bytes on, `L` thirty-two bytes on, read into the registers `X1`, `X2`, `X3` (R23, the spec's decision D23; R136). -/
def Obligations.KeyMaterialIsThreeBlocksInARow : Prop :=
  ∀ (m : Memory) (st key : Nat), ∀ i ∈ [Instr.aes4 st key, Instr.aes10 st key],
    ∃ keyI keyJ keyL : Block,
      (loadOf i m).x1 = some keyI ∧ (loadOf i m).x2 = some keyJ ∧ (loadOf i m).x3 = some keyL
      ∧ ∀ n (_ : n < 16), keyI[n] = Memory.byte m (key + n) ∧ keyJ[n] = Memory.byte m (key + 16 + n)
        ∧ keyL[n] = Memory.byte m (key + 32 + n)

/-- The invariant holds at launch. -/
def Obligations.LaunchStateMeetsTheInvariant : Prop := Inv State.reset

/-- Every step keeps the invariant: memory stays canonical, a thread has at most one invocation in flight, no two in
flight conflict, each one's registers are what reading memory now would give, and a thread faults at most once. -/
def Obligations.EveryStepKeepsTheInvariant : Prop := ∀ s s' : State, Inv s → step s = .next s' → Inv s'

/-- An invocation that ends after others ran beside it ends as if it ran alone at the instant it ends: finishing it is
running it whole (R59, derived by the spec from R50 and R56). -/
def Obligations.FinishingIsRunningAloneAtTheEnd : Prop :=
  ∀ (s : State) (f : InFlight) (rest : List Input), Inv s → f ∈ s.active → s.inputs = .finish f.thread :: rest →
    step s = exec f.instr { s with
      inputs := rest, thread := f.thread, active := s.active.filter fun g => g.thread != f.thread }

/-- Two invocations of different threads that keep the discipline and conflict neither with each other nor with what is in
flight leave the same memory, the same completed invocations and the same faults, in whichever order they are issued,
and the invocations in flight as they were (R59; an `Undefined` outcome, which draws, is left out). -/
def Obligations.NonConflictingInvocationsCommute : Prop :=
  ∀ (s : State) (t u : ThreadId) (d e : Descriptor) (i j : Instr),
    t ≠ u → MayIssue s t → MayIssue s u → decode d = .ok i → decode e = .ok j →
    Disciplined (regions i) → Disciplined (regions j) →
    NoConflict (regions i) [{ thread := u, instr := j, regs := Regs.empty }] →
    NoConflict (regions i) s.active → NoConflict (regions j) s.active →
    ∃ v w, Sys2Proof.core.run 2 { s with inputs := [.call t d, .call u e] } = .next v
      ∧ Sys2Proof.core.run 2 { s with inputs := [.call u e, .call t d] } = .next w
      ∧ SameBytes v.mem w.mem ∧ v.ended.Perm w.ended ∧ v.faults.Perm w.faults
      ∧ v.active = s.active ∧ w.active = s.active

/-- Two invocations that overlap in time, under the same premises and raising no fault, leave what issuing them one after
the other leaves, whichever ends first, and what else is in flight as it was. That an invocation reads at its start and
writes at its end is the model's choice (log entry 7). -/
def Obligations.OverlapEndsAsOneAfterTheOther : Prop :=
  ∀ (s : State) (t u : ThreadId) (d e : Descriptor) (i j : Instr),
    t ≠ u → MayIssue s t → MayIssue s u → decode d = .ok i → decode e = .ok j →
    trapOf s.cfg i = none → trapOf s.cfg j = none → Disciplined (regions i) → Disciplined (regions j) →
    NoConflict (regions i) [{ thread := u, instr := j, regs := Regs.empty }] →
    NoConflict (regions i) s.active → NoConflict (regions j) s.active →
    ∃ v w x, Sys2Proof.core.run 2 { s with inputs := [.call t d, .call u e] } = .next v
      ∧ Sys2Proof.core.run 4 { s with inputs := [.start t d, .start u e, .finish t, .finish u] } = .next w
      ∧ Sys2Proof.core.run 4 { s with inputs := [.start t d, .start u e, .finish u, .finish t] } = .next x
      ∧ SameBytes v.mem w.mem ∧ SameBytes v.mem x.mem ∧ v.ended.Perm w.ended ∧ v.ended.Perm x.ended
      ∧ v.faults = s.faults ∧ w.faults = s.faults ∧ x.faults = s.faults
      ∧ v.active = s.active ∧ w.active = s.active ∧ x.active = s.active

/-! ### Configuration and reset (10_state.md, 70_reset_and_hazards.md) -/

/-- R28 and R181 (the spec's decisions D8, D9 and D19): no operation and no reset changes the configuration; nor does any other step. -/
def Obligations.ConfigurationNeverChanges : Prop :=
  (∀ s s' : State, step s = .next s' → s'.cfg = s.cfg)
  ∧ (∀ (i : Instr) (s t : State), exec i s = .next t → t.cfg = s.cfg)

/-- R180 (the spec's decision D19): after a reset nothing is in flight, and each of the six operations is accepted at once from any thread that
may issue. -/
def Obligations.CoreIsIdleAndAcceptsAfterReset : Prop :=
  ∀ (s : State) (rest : List Input), s.inputs = .reset :: rest →
    ∃ t, step s = .next t ∧ t.active = []
      ∧ ∀ (u : ThreadId) (i : Instr), MayIssue t u → wellFormed i = true →
        step { t with inputs := [.call u (encode i)] } = exec i { t with inputs := [], thread := u }

/-- R183 (the spec's decision D19): a reset ends every invocation in flight without an outcome: the destination of each holds a drawn value, no
other byte of memory changes, its registers are gone, and no completion or fault is recorded for it. -/
def Obligations.ResetAbandonsWhatIsInFlight : Prop :=
  ∀ (s : State) (rest : List Input), Inv s → s.inputs = .reset :: rest →
    ∃ t, step s = .next t ∧ t.active = [] ∧ t.ended = s.ended ∧ t.faults = s.faults ∧ t.cfg = s.cfg
      ∧ t.inputs = rest
      ∧ (∀ a, (∀ f ∈ s.active, ∀ dst, destination f.instr = some dst → a < dst ∨ dst + 16 ≤ a) →
          Memory.byte t.mem a = Memory.byte s.mem a)
      ∧ (∀ f ∈ s.active, ∀ dst, destination f.instr = some dst →
          ∃ n, s.draws ≤ n ∧ n < t.draws ∧ Memory.readBlock t.mem dst = Config.draw n)
end

