-- ==== Sys2Proof/Laws/Blocks.lean ====
section
/-! SUPPORT. Blocks, transient registers and the steps of the AES round, byte by byte (00_scope.md R12, 42_aes.md R122 to
R125). -/

namespace Sys2Proof.Machine

@[simp] theorem xorBlock_getElem (a b : Block) (k : Nat) (h : k < 16) : (xorBlock a b)[k] = a[k] ^^^ b[k] := by
  simp [xorBlock]

@[simp] theorem zeroBlock_getElem (k : Nat) (h : k < 16) : zeroBlock[k] = 0 := by simp [zeroBlock]

theorem xorBlock_comm (a b : Block) : xorBlock a b = xorBlock b a := by
  ext1 k hk; simp [BitVec.xor_comm]

theorem xorBlock_assoc (a b c : Block) : xorBlock (xorBlock a b) c = xorBlock a (xorBlock b c) := by
  ext1 k hk; simp [BitVec.xor_assoc]

@[simp] theorem xorBlock_self (a : Block) : xorBlock a a = zeroBlock := by
  ext1 k hk; simp

@[simp] theorem xorBlock_zero (a : Block) : xorBlock a zeroBlock = a := by
  ext1 k hk; simp

@[simp] theorem zero_xorBlock (a : Block) : xorBlock zeroBlock a = a := by
  ext1 k hk; simp

@[simp] theorem subBytes_getElem (b : Block) (k : Nat) (h : k < 16) : (subBytes b)[k] = sbox b[k] := by
  simp [subBytes]

theorem shiftRowsIndex_lt (k : Nat) : shiftRowsIndex k < 16 := by unfold shiftRowsIndex; omega

@[simp] theorem shiftRows_getElem (b : Block) (k : Nat) (h : k < 16) :
    (shiftRows b)[k] = b[shiftRowsIndex k]'(shiftRowsIndex_lt k) := by simp [shiftRows]

@[simp] theorem mixColumns_getElem (b : Block) (k : Nat) (h : k < 16) :
    (mixColumns b)[k] = mixColumn (k % 4) b[4 * (k / 4)] b[4 * (k / 4) + 1] b[4 * (k / 4) + 2] b[4 * (k / 4) + 3] := by
  simp [mixColumns]

/-! ### Transient registers -/

/-- A register holds what was last written to it, and writing another leaves it alone. -/
@[simp] theorem Regs.x_setX (r : Regs) (n n' : XName) (v : Block) :
    (r.setX n v).x n' = if n = n' then v else r.x n' := by
  cases n <;> cases n' <;> simp [Regs.setX, Regs.x, Regs.xHeld]

@[simp] theorem Regs.w_setW (r : Regs) (n n' : WName) (v : Word) :
    (r.setW n v).w n' = if n = n' then v else r.w n' := by
  cases n <;> cases n' <;> simp [Regs.setW, Regs.w, Regs.wHeld]

end Sys2Proof.Machine
end

