-- ==== Sys2Proof/Laws/Encoding.lean ====
section
/-! SUPPORT. Bytes and numbers, least significant byte first (30_encoding.md R73). -/

namespace Sys2Proof

@[simp] theorem addrInRange_iff (a : Nat) : addrInRange a = true ↔ a < 2 ^ 64 := decide_eq_true_iff

theorem byteAt_toNat (v j : Nat) : (byteAt v j).toNat = v / 256 ^ j % 256 := by simp [byteAt]

/-- The bytes of a number, read back, are the number modulo the power they span. -/
theorem littleEndian_bytes (v n : Nat) : littleEndian (List.ofFn fun j : Fin n => byteAt v j.val) = v % 256 ^ n := by
  induction n generalizing v with
  | zero => simp [littleEndian, Nat.mod_one]
  | succ n ih =>
    have step : (List.ofFn fun j : Fin n => byteAt v (j.val + 1)) = List.ofFn fun j : Fin n => byteAt (v / 256) j.val := by
      congr 1
      funext j
      simp [byteAt, Nat.pow_succ, Nat.mul_comm, Nat.div_div_eq_div_mul]
    simp only [List.ofFn_succ, Fin.val_zero, Fin.val_succ, littleEndian, step, ih, byteAt_toNat, Nat.pow_zero, Nat.div_one]
    rw [Nat.pow_succ, Nat.mul_comm (256 ^ n) 256, Nat.mod_mul]

/-- The number of a run of bytes is the sum of the bytes, each times its power of two (R73). -/
theorem littleEndian_eq_sum (n : Nat) (f : Fin n → Byte) :
    littleEndian (List.ofFn f) = (List.ofFn fun j : Fin n => (f j).toNat * 2 ^ (8 * j.val)).sum := by
  induction n with
  | zero => rfl
  | succ n ih =>
    have shift : (fun j : Fin n => (f j.succ).toNat * 2 ^ (8 * j.succ.val)) =
        fun j : Fin n => 256 * ((f j.succ).toNat * 2 ^ (8 * j.val)) := by
      funext j
      rw [Fin.val_succ, Nat.mul_add, Nat.pow_add]
      ring
    rw [List.ofFn_succ, List.ofFn_succ, littleEndian, ih, List.sum_cons, shift]
    simp [List.sum_ofFn, Finset.mul_sum]

theorem littleEndian_lt (bs : List Byte) : littleEndian bs < 256 ^ bs.length := by
  induction bs with
  | nil => simp [littleEndian]
  | cons b bs ih =>
    have := b.isLt
    simp only [littleEndian, List.length_cons, Nat.pow_succ]
    omega

theorem slot_lt (d : Descriptor) (k : Fin 5) : slot d k < 2 ^ 64 := by
  have h := littleEndian_lt (List.ofFn fun j : Fin 8 => d[8 + 8 * k.val + j.val]'(by omega))
  rw [List.length_ofFn] at h
  exact Nat.lt_of_lt_of_eq h (by norm_num)

/-- A byte of an operand's field. -/
theorem encode_getElem_field (i : Instr) (k : Fin 5) (j : Fin 8) :
    (encode i)[8 + 8 * k.val + j.val]'(by omega) = byteAt ((operands i).getD k.val 0) j.val := by
  have h1 : ¬(8 + 8 * k.val + j.val = 0) := by omega
  have h2 : ¬(8 + 8 * k.val + j.val < 8) := by omega
  have h3 : (8 + 8 * k.val + j.val - 8) / 8 = k.val := by omega
  have h4 : (8 + 8 * k.val + j.val - 8) % 8 = j.val := by omega
  simp only [encode, Vector.getElem_ofFn, h1, h2, h3, h4, if_false]

/-- A field of an encoded invocation is the operand in that slot, or zero. -/
theorem slot_encode (i : Instr) (k : Fin 5) : slot (encode i) k = (operands i).getD k.val 0 % 2 ^ 64 := by
  have e := funext fun j : Fin 8 => encode_getElem_field i k j
  exact (congrArg (fun f => littleEndian (List.ofFn f)) e).trans (littleEndian_bytes _ 8)

@[simp] theorem encode_opcode (i : Instr) : (encode i)[0] = opcode i := by simp [encode]

end Sys2Proof
end

