-- ==== Sys2Proof/Laws/Parameters.lean ====
section
/-! SUPPORT. The values of the fixed parameters (00_scope.md R5), and that the types and the schedules of the model have
the sizes they give. -/

namespace Sys2Proof

@[simp] theorem Config.fixed_blockBytes : Config.fixed.blockBytes = 16 := rfl
@[simp] theorem Config.fixed_keyBytes : Config.fixed.keyBytes = 48 := rfl
@[simp] theorem Config.fixed_addrBits : Config.fixed.addrBits = 64 := rfl

theorem Config.keyBytes_eq : Config.fixed.keyBytes = Config.fixed.keyBlocks * Config.fixed.blockBytes := rfl

theorem block_size : Block = Vector Byte Config.fixed.blockBytes := rfl
theorem word_size : Word = BitVec Config.fixed.capWordBits := rfl

/-- Threads are not bounded in number: every natural number names one. -/
theorem threads_unbounded : Config.fixed.numAgents = none ∧ ThreadId = Nat := ⟨rfl, rfl⟩

namespace Machine

theorem aes4Schedule_length : aes4Schedule.length = Config.fixed.roundsAes4 := rfl
theorem aes10Schedule_length : aes10Schedule.length = Config.fixed.roundsAes10 := rfl

end Machine

end Sys2Proof
end

