-- ==== Sys2Proof/Laws/Memory.lean ====
section
/-! SUPPORT. What the memory operations do: read after write, the bytes a write leaves alone, and that every one of them
keeps the canonical form (20_memory.md R41 to R43). -/

namespace Sys2Proof.Machine

theorem Memory.lookup_set (m : Memory) (a : Nat) (v : Byte) (x : Nat) :
    Memory.lookup (Memory.set m a v) x = if a = x then some v else Memory.lookup m x := by
  induction m with
  | nil => simp [Memory.set, Memory.lookup]
  | cons c m ih =>
    obtain ⟨k, w⟩ := c
    simp only [Memory.set]
    split
    · simp [Memory.lookup]
    · split
      · subst_vars
        by_cases hx : k = x <;> simp [Memory.lookup, hx]
      · by_cases hk : k = x
        · subst hk; simp [Memory.lookup]; intro h; omega
        · simp [Memory.lookup, hk, ih]

theorem Memory.byte_set (m : Memory) (a : Nat) (v : Byte) (x : Nat) :
    Memory.byte (Memory.set m a v) x = if a = x then v else Memory.byte m x := by
  unfold Memory.byte
  rw [Memory.lookup_set]
  by_cases h : a = x <;> simp [h]

/-- A byte outside the run of bytes just stored. -/
theorem Memory.byte_setBytes_outside (m : Memory) (a : Nat) (vs : List Byte) (x : Nat)
    (h : x < a ∨ a + vs.length ≤ x) : Memory.byte (Memory.setBytes m a vs) x = Memory.byte m x := by
  induction vs generalizing m a with
  | nil => rfl
  | cons v vs ih =>
    rw [List.length_cons] at h
    have hx : a ≠ x := by omega
    rw [Memory.setBytes, ih _ _ (by omega), Memory.byte_set, if_neg hx]

/-- A byte of the run just stored. -/
theorem Memory.byte_setBytes_inside (m : Memory) (a : Nat) (vs : List Byte) (k : Nat) (h : k < vs.length) :
    Memory.byte (Memory.setBytes m a vs) (a + k) = vs[k] := by
  induction vs generalizing m a k with
  | nil => simp at h
  | cons v vs ih =>
    rw [Memory.setBytes]
    cases k with
    | zero => rw [Memory.byte_setBytes_outside _ _ _ _ (by omega), Memory.byte_set, if_pos (by omega)]; rfl
    | succ k =>
      rw [List.length_cons] at h
      rw [show a + (k + 1) = a + 1 + k by omega, ih _ _ k (by omega), List.getElem_cons_succ]

@[simp] theorem blockList_length (b : Block) : (blockList b).length = 16 := by simp [blockList]

@[simp] theorem blockList_getElem (b : Block) (k : Nat) (h : k < (blockList b).length) :
    (blockList b)[k] = b[k]'(by simpa using h) := by
  unfold blockList
  exact List.getElem_ofFn _

@[simp] theorem Memory.readBlock_getElem (m : Memory) (a : Nat) (k : Nat) (h : k < 16) :
    (Memory.readBlock m a)[k] = Memory.byte m (a + k) := by simp [Memory.readBlock]

/-- A byte of the Block just written. -/
theorem Memory.byte_writeBlock_inside (m : Memory) (a : Nat) (b : Block) (k : Nat) (h : k < 16) :
    Memory.byte (Memory.writeBlock m a b) (a + k) = b[k] := by
  rw [Memory.writeBlock, Memory.byte_setBytes_inside _ _ _ k (by simpa using h), blockList_getElem]

/-- A byte outside the Block just written. -/
theorem Memory.byte_writeBlock_outside (m : Memory) (a : Nat) (b : Block) (x : Nat) (h : x < a ∨ a + 16 ≤ x) :
    Memory.byte (Memory.writeBlock m a b) x = Memory.byte m x :=
  Memory.byte_setBytes_outside _ _ _ _ (by simpa using h)

/-- A Block read clear of the bytes stored is the Block that was there. -/
theorem Memory.readBlock_congr (m m' : Memory) (a : Nat)
    (h : ∀ k, k < 16 → Memory.byte m (a + k) = Memory.byte m' (a + k)) :
    Memory.readBlock m a = Memory.readBlock m' a := by
  ext k hk
  simp [h k hk]

theorem Memory.readBlock_writeBlock_disjoint (m : Memory) (a p : Nat) (b : Block) (h : p + 16 ≤ a ∨ a + 16 ≤ p) :
    Memory.readBlock (Memory.writeBlock m p b) a = Memory.readBlock m a :=
  Memory.readBlock_congr _ _ _ fun k hk => Memory.byte_writeBlock_outside _ _ _ _ (by omega)

/-! ### The canonical form -/

theorem Memory.mem_set {m : Memory} {a : Nat} {v : Byte} {c : Host.Cell} (h : c ∈ Memory.set m a v) :
    c = (a, v) ∨ c ∈ m := by
  induction m with
  | nil => simpa [Memory.set] using h
  | cons d m ih =>
    obtain ⟨k, w⟩ := d
    simp only [Memory.set] at h
    split at h
    · simpa using h
    · split at h
      · rcases List.mem_cons.1 h with h | h
        · exact .inl h
        · exact .inr (List.mem_cons_of_mem _ h)
      · rcases List.mem_cons.1 h with h | h
        · exact .inr (by simp [h])
        · exact (ih h).imp id (List.mem_cons_of_mem _)

/-- Storing one byte keeps the canonical form. -/
theorem Memory.set_wf {m : Memory} (hm : Memory.wf m) {a : Nat} (ha : a < 2 ^ Config.fixed.addrBits) (v : Byte) :
    Memory.wf (Memory.set m a v) := by
  obtain ⟨hs, hb⟩ := hm
  refine ⟨?_, fun c hc => ?_⟩
  · clear hb
    induction m with
    | nil => simp [Memory.set]
    | cons d m ih =>
      obtain ⟨k, w⟩ := d
      obtain ⟨h1, h2⟩ := List.pairwise_cons.1 hs
      simp only [Memory.set]
      split
      · rename_i hlt
        refine List.pairwise_cons.2 ⟨fun c hc => ?_, hs⟩
        rcases List.mem_cons.1 hc with rfl | hc
        · exact hlt
        · exact Nat.lt_trans hlt (h1 c hc)
      · split
        · subst_vars; exact List.pairwise_cons.2 ⟨h1, h2⟩
        · refine List.pairwise_cons.2 ⟨fun c hc => ?_, ih h2⟩
          rcases Memory.mem_set hc with rfl | hc
          · simp only; omega
          · exact h1 c hc
  · rcases Memory.mem_set hc with rfl | hc
    · exact ha
    · exact hb c hc

/-- Storing a run of bytes inside the address space keeps the canonical form. -/
theorem Memory.setBytes_wf {m : Memory} (hm : Memory.wf m) {a : Nat} (vs : List Byte)
    (ha : a + vs.length ≤ 2 ^ Config.fixed.addrBits) : Memory.wf (Memory.setBytes m a vs) := by
  induction vs generalizing m a with
  | nil => exact hm
  | cons v vs ih =>
    simp only [List.length_cons] at ha
    exact ih (Memory.set_wf hm (by omega) v) (by omega)

/-- Storing a Block inside the address space keeps the canonical form. -/
theorem Memory.writeBlock_wf {m : Memory} (hm : Memory.wf m) {a : Nat} (b : Block)
    (ha : a + 16 ≤ 2 ^ Config.fixed.addrBits) :
    Memory.wf (Memory.writeBlock m a b) := Memory.setBytes_wf hm _ (by simpa using ha)

theorem Memory.lookup_eq_none_of_lt {m : Memory} {a : Nat} (h : ∀ c ∈ m, a < c.1) : Memory.lookup m a = none := by
  induction m with
  | nil => rfl
  | cons d m ih =>
    obtain ⟨k, w⟩ := d
    have hk : a < k := h (k, w) (by simp)
    have : k ≠ a := by omega
    simp [Memory.lookup, this, ih fun c hc => h c (by simp [hc])]

/-- Equal memories are equal data: two memories in canonical form that hold the same bytes are the same list. -/
theorem Memory.eq_of_lookup {m m' : Memory} (hm : Memory.wf m) (hm' : Memory.wf m')
    (h : ∀ a, Memory.lookup m a = Memory.lookup m' a) : m = m' := by
  obtain ⟨hs, -⟩ := hm
  obtain ⟨hs', -⟩ := hm'
  induction m generalizing m' with
  | nil =>
    cases m' with
    | nil => rfl
    | cons d m' => have := h d.1; simp [Memory.lookup] at this
  | cons d m ih =>
    cases m' with
    | nil => have := h d.1; simp [Memory.lookup] at this
    | cons d' m' =>
      obtain ⟨k, w⟩ := d
      obtain ⟨k', w'⟩ := d'
      obtain ⟨h1, h2⟩ := List.pairwise_cons.1 hs
      obtain ⟨h1', h2'⟩ := List.pairwise_cons.1 hs'
      have hk : k = k' := by
        rcases Nat.lt_trichotomy k k' with hlt | heq | hgt
        · have e := h k
          rw [Memory.lookup_eq_none_of_lt (m := (k', w') :: m')] at e
          · simp [Memory.lookup] at e
          · intro c hc
            rcases List.mem_cons.1 hc with rfl | hc
            · exact hlt
            · exact Nat.lt_trans hlt (h1' c hc)
        · exact heq
        · have e := h k'
          rw [Memory.lookup_eq_none_of_lt (m := (k, w) :: m)] at e
          · simp [Memory.lookup] at e
          · intro c hc
            rcases List.mem_cons.1 hc with rfl | hc
            · exact hgt
            · exact Nat.lt_trans hgt (h1 c hc)
      subst hk
      have hw : w = w' := by simpa [Memory.lookup] using h k
      subst hw
      congr 1
      refine ih ?_ h2 h2'
      intro a
      have e := h a
      by_cases ha : k = a
      · subst ha
        rw [Memory.lookup_eq_none_of_lt h1, Memory.lookup_eq_none_of_lt h1']
      · simpa [Memory.lookup, ha] using e

end Sys2Proof.Machine
end

