-- ==== Sys2Proof/Laws/Operands.lean ====
section
/-! SUPPORT. What the checks on operands say, in the terms of Safety.lean. -/

namespace Sys2Proof.Machine

theorem accessible_iff (c : Config) (r : Region) : accessible c r = true ↔ Accessible c r := by
  have e : decide (r.base + r.len ≤ 2 ^ Config.fixed.addrBits) = decide (r.base + r.len ≤ 2 ^ 64) := rfl
  simp only [accessible, Accessible, e, Bool.and_eq_true, decide_eq_true_eq, Bool.or_eq_true,
    Bool.not_eq_true', List.all_eq_true, List.mem_range, and_assoc]
  cases r.reads <;> cases r.writes <;> simp

theorem checkAccess_eq_none_iff (c : Config) (rs : List Region) :
    checkAccess c rs = none ↔ ∀ r ∈ rs, Accessible c r := by
  induction rs with
  | nil => simp [checkAccess]
  | cons r rs ih =>
    rw [List.forall_mem_cons, ← ih, ← accessible_iff, checkAccess]
    split <;> simp_all

/-- The first region that is not accessible is the one reported (R154). -/
theorem checkAccess_append (c : Config) (before : List Region) (r : Region) (after : List Region)
    (hb : ∀ q ∈ before, Accessible c q) (hr : ¬Accessible c r) :
    checkAccess c (before ++ r :: after) = some r.base := by
  induction before with
  | nil => simp [checkAccess, accessible_iff, hr]
  | cons q qs ih =>
    have hq := (accessible_iff c q).2 (hb q (by simp))
    simp [checkAccess, hq, ih fun x hx => hb x (by simp [hx])]

/-- Where the check fails, some first region is not accessible. -/
theorem checkAccess_eq_some {c : Config} {rs : List Region} {a : Nat} (h : checkAccess c rs = some a) :
    ∃ before r after, rs = before ++ r :: after ∧ (∀ q ∈ before, Accessible c q) ∧ ¬Accessible c r ∧ r.base = a := by
  induction rs with
  | nil => simp [checkAccess] at h
  | cons q qs ih =>
    by_cases hq : accessible c q = true
    · simp only [checkAccess, hq, if_true] at h
      obtain ⟨b, r, af, rfl, hb, hr, hra⟩ := ih h
      refine ⟨q :: b, r, af, rfl, ?_, hr, hra⟩
      intro x hx
      rcases List.mem_cons.1 hx with rfl | hx
      · exact (accessible_iff _ _).1 hq
      · exact hb x hx
    · simp only [checkAccess, hq] at h
      exact ⟨[], q, qs, rfl, by simp, fun ha => hq ((accessible_iff _ _).2 ha), by simpa using h⟩

theorem regionDisjoint_iff (r q : Region) :
    Region.disjoint r q = true ↔ r.base + r.len ≤ q.base ∨ q.base + q.len ≤ r.base := by
  simp [Region.disjoint]

theorem pairOk_iff (r q : Region) : Region.pairOk r q = true ↔ Apart r q := by
  simp [Region.pairOk, Region.identical, Region.disjoint, Apart]

theorem regionsOk_iff (rs : List Region) : regionsOk rs = true ↔ Disciplined rs := by
  induction rs with
  | nil => simp [regionsOk, Disciplined]
  | cons r rs ih =>
    simp only [regionsOk, Bool.and_eq_true, List.all_eq_true, pairOk_iff, ih, Disciplined, List.pairwise_cons]

/-- Two lists of regions do not conflict when each written region is disjoint from every region of the other (R59). -/
theorem regionsConflict_eq_false_iff (rs qs : List Region) :
    regionsConflict rs qs = false ↔
      ∀ r ∈ rs, ∀ q ∈ qs, (r.writes = true ∨ q.writes = true) →
        r.base + r.len ≤ q.base ∨ q.base + q.len ≤ r.base := by
  simp only [regionsConflict, List.any_eq_false, List.any_eq_true, not_exists, not_and, Region.conflicts,
    Bool.and_eq_true, Bool.or_eq_true, Bool.not_eq_true', Bool.not_eq_false, ← regionDisjoint_iff]

theorem regionsConflict_comm (rs qs : List Region) : regionsConflict rs qs = regionsConflict qs rs := by
  rw [Bool.eq_iff_iff, ← not_iff_not, Bool.not_eq_true, Bool.not_eq_true, regionsConflict_eq_false_iff,
    regionsConflict_eq_false_iff]
  constructor <;> intro h r hr q hq hw <;> exact (h q hq r hr hw.symm).symm

theorem conflictsWithActive_eq_false_iff (rs : List Region) (fs : List InFlight) :
    conflictsWithActive rs fs = false ↔ ∀ f ∈ fs, regionsConflict rs (regions f.instr) = false := by
  simp [conflictsWithActive]

theorem noConflict_iff (rs : List Region) (fs : List InFlight) :
    NoConflict rs fs ↔ conflictsWithActive rs fs = false := by
  simp only [conflictsWithActive_eq_false_iff, regionsConflict_eq_false_iff, NoConflict]

theorem noConflict_symm {f g : InFlight} (h : NoConflict (regions f.instr) [g]) : NoConflict (regions g.instr) [f] := by
  simp only [NoConflict, List.mem_singleton, forall_eq] at h ⊢
  exact fun r hr q hq hw => (h q hq r hr hw.symm).symm

/-- The destination of an operation is one of its written regions (R47). -/
theorem destination_region {i : Instr} {dst : Nat} (h : destination i = some dst) :
    ∃ r ∈ regions i, r.base = dst ∧ r.len = 16 ∧ r.writes = true := by
  cases i <;> simp [destination] at h <;> subst h <;>
    simp [regions, sourceRegion, destRegion, stateRegion, keyRegion]

/-- The reading stage depends only on the bytes of the regions the operation reads (R47, R133). -/
theorem loadOf_congr (i : Instr) (m m' : Memory)
    (h : ∀ r ∈ regions i, r.reads = true → ∀ k, k < r.len → Memory.byte m (r.base + k) = Memory.byte m' (r.base + k)) :
    loadOf i m = loadOf i m' := by
  have src (a : Nat) (ha : sourceRegion a ∈ regions i) : Memory.readBlock m a = Memory.readBlock m' a :=
    Memory.readBlock_congr m m' a (h _ ha rfl)
  have sta (a : Nat) (ha : stateRegion a ∈ regions i) : Memory.readBlock m a = Memory.readBlock m' a :=
    Memory.readBlock_congr m m' a (h _ ha rfl)
  have key (a o : Nat) (ha : keyRegion a ∈ regions i) (ho : o + 16 ≤ 48) :
      Memory.readBlock m (a + o) = Memory.readBlock m' (a + o) := by
    refine Memory.readBlock_congr m m' _ fun k hk => ?_
    have := h _ ha rfl (o + k) (by simp only [keyRegion, Config.fixed_keyBytes]; omega)
    simpa [keyRegion, Nat.add_assoc] using this
  cases i with
  | queryCPUID => rfl
  | xor2 a b dst => simp only [loadOf, xor2Load, src a (by simp [regions]), src b (by simp [regions])]
  | xor3 a b c dst =>
    simp only [loadOf, xor3Load, src a (by simp [regions]), src b (by simp [regions]), src c (by simp [regions])]
  | xor4 a b c d dst =>
    simp only [loadOf, xor4Load, src a (by simp [regions]), src b (by simp [regions]), src c (by simp [regions]),
      src d (by simp [regions])]
  | aes4 st ky =>
    have k0 := key ky 0 (by simp [regions]) (by omega)
    rw [Nat.add_zero] at k0
    simp only [loadOf, aesLoad, sta st (by simp [regions]), k0, key ky 16 (by simp [regions]) (by omega),
      key ky 32 (by simp [regions]) (by omega)]
  | aes10 st ky =>
    have k0 := key ky 0 (by simp [regions]) (by omega)
    rw [Nat.add_zero] at k0
    simp only [loadOf, aesLoad, sta st (by simp [regions]), k0, key ky 16 (by simp [regions]) (by omega),
      key ky 32 (by simp [regions]) (by omega)]

end Sys2Proof.Machine
end

