-- ==== Sys2Proof/Laws/State.lean ====
section
/-! SUPPORT. One lemma per field of the state and update, so that no proof unfolds a record update. -/

namespace Sys2Proof.Machine

/-! ### `withMem` -/

@[simp] theorem State.withMem_cfg (s : State) (m : Memory) : (s.withMem m).cfg = s.cfg := rfl
@[simp] theorem State.withMem_mem (s : State) (m : Memory) : (s.withMem m).mem = m := rfl
@[simp] theorem State.withMem_active (s : State) (m : Memory) : (s.withMem m).active = s.active := rfl
@[simp] theorem State.withMem_faults (s : State) (m : Memory) : (s.withMem m).faults = s.faults := rfl
@[simp] theorem State.withMem_ended (s : State) (m : Memory) : (s.withMem m).ended = s.ended := rfl
@[simp] theorem State.withMem_thread (s : State) (m : Memory) : (s.withMem m).thread = s.thread := rfl
@[simp] theorem State.withMem_draws (s : State) (m : Memory) : (s.withMem m).draws = s.draws := rfl
@[simp] theorem State.withMem_inputs (s : State) (m : Memory) : (s.withMem m).inputs = s.inputs := rfl

/-! ### `onThread` -/

@[simp] theorem State.onThread_cfg (s : State) (t : ThreadId) : (s.onThread t).cfg = s.cfg := rfl
@[simp] theorem State.onThread_mem (s : State) (t : ThreadId) : (s.onThread t).mem = s.mem := rfl
@[simp] theorem State.onThread_active (s : State) (t : ThreadId) : (s.onThread t).active = s.active := rfl
@[simp] theorem State.onThread_faults (s : State) (t : ThreadId) : (s.onThread t).faults = s.faults := rfl
@[simp] theorem State.onThread_ended (s : State) (t : ThreadId) : (s.onThread t).ended = s.ended := rfl
@[simp] theorem State.onThread_thread (s : State) (t : ThreadId) : (s.onThread t).thread = t := rfl
@[simp] theorem State.onThread_draws (s : State) (t : ThreadId) : (s.onThread t).draws = s.draws := rfl
@[simp] theorem State.onThread_inputs (s : State) (t : ThreadId) : (s.onThread t).inputs = s.inputs := rfl

/-! ### `withActive` -/

@[simp] theorem State.withActive_cfg (s : State) (fs : List InFlight) : (s.withActive fs).cfg = s.cfg := rfl
@[simp] theorem State.withActive_mem (s : State) (fs : List InFlight) : (s.withActive fs).mem = s.mem := rfl
@[simp] theorem State.withActive_active (s : State) (fs : List InFlight) : (s.withActive fs).active = fs := rfl
@[simp] theorem State.withActive_faults (s : State) (fs : List InFlight) : (s.withActive fs).faults = s.faults := rfl
@[simp] theorem State.withActive_ended (s : State) (fs : List InFlight) : (s.withActive fs).ended = s.ended := rfl
@[simp] theorem State.withActive_thread (s : State) (fs : List InFlight) : (s.withActive fs).thread = s.thread := rfl
@[simp] theorem State.withActive_draws (s : State) (fs : List InFlight) : (s.withActive fs).draws = s.draws := rfl
@[simp] theorem State.withActive_inputs (s : State) (fs : List InFlight) : (s.withActive fs).inputs = s.inputs := rfl

/-! ### `withInputs` -/

@[simp] theorem State.withInputs_cfg (s : State) (is : List Input) : (s.withInputs is).cfg = s.cfg := rfl
@[simp] theorem State.withInputs_mem (s : State) (is : List Input) : (s.withInputs is).mem = s.mem := rfl
@[simp] theorem State.withInputs_active (s : State) (is : List Input) : (s.withInputs is).active = s.active := rfl
@[simp] theorem State.withInputs_faults (s : State) (is : List Input) : (s.withInputs is).faults = s.faults := rfl
@[simp] theorem State.withInputs_ended (s : State) (is : List Input) : (s.withInputs is).ended = s.ended := rfl
@[simp] theorem State.withInputs_thread (s : State) (is : List Input) : (s.withInputs is).thread = s.thread := rfl
@[simp] theorem State.withInputs_draws (s : State) (is : List Input) : (s.withInputs is).draws = s.draws := rfl
@[simp] theorem State.withInputs_inputs (s : State) (is : List Input) : (s.withInputs is).inputs = is := rfl

/-! ### `drawn` -/

@[simp] theorem State.drawn_cfg (s : State) : (s.drawn).cfg = s.cfg := rfl
@[simp] theorem State.drawn_mem (s : State) : (s.drawn).mem = s.mem := rfl
@[simp] theorem State.drawn_active (s : State) : (s.drawn).active = s.active := rfl
@[simp] theorem State.drawn_faults (s : State) : (s.drawn).faults = s.faults := rfl
@[simp] theorem State.drawn_ended (s : State) : (s.drawn).ended = s.ended := rfl
@[simp] theorem State.drawn_thread (s : State) : (s.drawn).thread = s.thread := rfl
@[simp] theorem State.drawn_draws (s : State) : (s.drawn).draws = s.draws + 1 := rfl
@[simp] theorem State.drawn_inputs (s : State) : (s.drawn).inputs = s.inputs := rfl

/-! ### `retire` -/

@[simp] theorem State.retire_cfg (s : State) (i : Instr) (e : Ending) : (s.retire i e).cfg = s.cfg := rfl
@[simp] theorem State.retire_mem (s : State) (i : Instr) (e : Ending) : (s.retire i e).mem = s.mem := rfl
@[simp] theorem State.retire_active (s : State) (i : Instr) (e : Ending) : (s.retire i e).active = s.active := rfl
@[simp] theorem State.retire_faults (s : State) (i : Instr) (e : Ending) : (s.retire i e).faults = s.faults := rfl
@[simp] theorem State.retire_ended (s : State) (i : Instr) (e : Ending) : (s.retire i e).ended = { thread := s.thread, instr := i, ending := e } :: s.ended := rfl
@[simp] theorem State.retire_thread (s : State) (i : Instr) (e : Ending) : (s.retire i e).thread = s.thread := rfl
@[simp] theorem State.retire_draws (s : State) (i : Instr) (e : Ending) : (s.retire i e).draws = s.draws := rfl
@[simp] theorem State.retire_inputs (s : State) (i : Instr) (e : Ending) : (s.retire i e).inputs = s.inputs := rfl

/-! ### `takeFault` -/

@[simp] theorem takeFault_cfg (is : Issued) (c : Cause) (n : Info) (s : State) :
    (takeFault is c n s).cfg = s.cfg := rfl
@[simp] theorem takeFault_mem (is : Issued) (c : Cause) (n : Info) (s : State) :
    (takeFault is c n s).mem = s.mem := rfl
@[simp] theorem takeFault_active (is : Issued) (c : Cause) (n : Info) (s : State) :
    (takeFault is c n s).active = s.active := rfl
@[simp] theorem takeFault_faults (is : Issued) (c : Cause) (n : Info) (s : State) :
    (takeFault is c n s).faults = { thread := s.thread, issued := is, cause := c, info := n } :: s.faults := rfl
@[simp] theorem takeFault_ended (is : Issued) (c : Cause) (n : Info) (s : State) :
    (takeFault is c n s).ended = s.ended := rfl
@[simp] theorem takeFault_thread (is : Issued) (c : Cause) (n : Info) (s : State) :
    (takeFault is c n s).thread = s.thread := rfl
@[simp] theorem takeFault_draws (is : Issued) (c : Cause) (n : Info) (s : State) :
    (takeFault is c n s).draws = s.draws := rfl
@[simp] theorem takeFault_inputs (is : Issued) (c : Cause) (n : Info) (s : State) :
    (takeFault is c n s).inputs = s.inputs := rfl

end Sys2Proof.Machine
end

