-- ==== Sys2Proof/Laws/Exec.lean ====
section
/-! SUPPORT. What running one invocation does: every operation is `invoke` of its reading stage and its computation, and
answers one of three next states. -/

namespace Sys2Proof.Machine

/-- Every meaning is the shared operation over the instruction's own stages (R100, R136). -/
theorem exec_eq_invoke (i : Instr) (s : State) : exec i s = invoke i (loadOf i) (computeOf s.cfg i) s := by
  cases i <;> rfl

/-- The Block an operation's stages leave in `X0`. -/
def resultOf (c : Config) (i : Instr) (m : Memory) : Block := (computeOf c i (loadOf i m)).x .x0

/-- The words a query's stages leave in its output registers. -/
def wordsOf (c : Config) (i : Instr) (m : Memory) : CapWords :=
  let out := computeOf c i (loadOf i m)
  { eax := out.w .eax, ebx := out.w .ebx, ecx := out.w .ecx, edx := out.w .edx }

theorem trapOf_eq_none_iff (c : Config) (i : Instr) :
    trapOf c i = none ↔ capable c i = true ∧ ∀ r ∈ regions i, Accessible c r := by
  unfold trapOf
  rw [← checkAccess_eq_none_iff]
  cases capable c i <;> simp
  cases checkAccess c (regions i) <;> simp

theorem trapOf_incapable {c : Config} {i : Instr} (h : capable c i = false) :
    trapOf c i = some { cause := .illegalInstruction, info := .op (opcode i) } := by
  simp [trapOf, h]

theorem trapOf_inaccessible {c : Config} {i : Instr} (h : capable c i = true) (before : List Region) (r : Region)
    (after : List Region) (he : regions i = before ++ r :: after) (hb : ∀ q ∈ before, Accessible c q)
    (hr : ¬Accessible c r) : trapOf c i = some { cause := .memoryFault, info := .base r.base } := by
  simp [trapOf, h, he, checkAccess_append c before r after hb hr]

/-- Where the checks fail, the fault is taken. -/
theorem exec_of_trap {i : Instr} {s : State} {t : Trap} (h : trapOf s.cfg i = some t) :
    exec i s = .next (takeFault (.invocation i) t.cause t.info s) := by
  simp [exec_eq_invoke, invoke, h]

/-- Where the checks pass, the last stages run on the registers loaded. -/
theorem exec_of_no_trap {i : Instr} {s : State} (h : trapOf s.cfg i = none) :
    exec i s = .next (conclude i (computeOf s.cfg i) (loadOf i s.mem) s) := by
  simp [exec_eq_invoke, invoke, h]

theorem conclude_returning {i : Instr} (h : destination i = none) (f : Regs → Regs) (r : Regs) (s : State) :
    conclude i f r s = s.retire i (.returned
      { eax := (f r).w .eax, ebx := (f r).w .ebx, ecx := (f r).w .ecx, edx := (f r).w .edx }) := by
  simp [conclude, h]

theorem conclude_storing {i : Instr} {dst : Nat} (h : destination i = some dst) (hd : Disciplined (regions i))
    (f : Regs → Regs) (r : Regs) (s : State) :
    conclude i f r s = (s.withMem (Memory.writeBlock s.mem dst ((f r).x .x0))).retire i .done := by
  simp [conclude, h, (regionsOk_iff _).2 hd]

theorem conclude_drawing {i : Instr} {dst : Nat} (h : destination i = some dst) (hd : ¬Disciplined (regions i))
    (f : Regs → Regs) (r : Regs) (s : State) :
    conclude i f r s =
      ((s.withMem (Memory.writeBlock s.mem dst (Config.draw s.draws))).drawn).retire i .undefined := by
  have hf : ¬regionsOk (regions i) = true := fun hc => hd ((regionsOk_iff _).1 hc)
  simp only [conclude, h, if_neg hf]

/-- Everything the last stages can do: return words, or store one Block at the destination and nothing else. -/
theorem conclude_cases (i : Instr) (f : Regs → Regs) (r : Regs) (s : State) :
    (∃ w, destination i = none ∧ conclude i f r s = s.retire i (.returned w)) ∨
    (∃ dst, destination i = some dst ∧ Disciplined (regions i) ∧
      conclude i f r s = (s.withMem (Memory.writeBlock s.mem dst ((f r).x .x0))).retire i .done) ∨
    (∃ dst, destination i = some dst ∧ ¬Disciplined (regions i) ∧
      conclude i f r s =
        ((s.withMem (Memory.writeBlock s.mem dst (Config.draw s.draws))).drawn).retire i .undefined) := by
  cases h : destination i with
  | none => exact .inl ⟨_, rfl, conclude_returning h f r s⟩
  | some dst =>
    by_cases hd : Disciplined (regions i)
    · exact .inr (.inl ⟨dst, rfl, hd, conclude_storing h hd f r s⟩)
    · exact .inr (.inr ⟨dst, rfl, hd, conclude_drawing h hd f r s⟩)

/-- The last stages leave alone all but memory, the draws and the list of completed invocations. -/
theorem conclude_onlyResult (i : Instr) (f : Regs → Regs) (r : Regs) (s : State) : OnlyResult s (conclude i f r s) := by
  obtain ⟨w, -, h⟩ | ⟨dst, -, -, h⟩ | ⟨dst, -, -, h⟩ := conclude_cases i f r s <;> simp [h, OnlyResult]

@[simp] theorem conclude_cfg (i : Instr) (f : Regs → Regs) (r : Regs) (s : State) : (conclude i f r s).cfg = s.cfg :=
  (conclude_onlyResult i f r s).1

@[simp] theorem conclude_active (i : Instr) (f : Regs → Regs) (r : Regs) (s : State) :
    (conclude i f r s).active = s.active := (conclude_onlyResult i f r s).2.1

@[simp] theorem conclude_faults (i : Instr) (f : Regs → Regs) (r : Regs) (s : State) :
    (conclude i f r s).faults = s.faults := (conclude_onlyResult i f r s).2.2.1

@[simp] theorem conclude_thread (i : Instr) (f : Regs → Regs) (r : Regs) (s : State) :
    (conclude i f r s).thread = s.thread := (conclude_onlyResult i f r s).2.2.2.1

@[simp] theorem conclude_inputs (i : Instr) (f : Regs → Regs) (r : Regs) (s : State) :
    (conclude i f r s).inputs = s.inputs := (conclude_onlyResult i f r s).2.2.2.2

/-- The last stages change no byte outside the destination. -/
theorem conclude_byte (i : Instr) (f : Regs → Regs) (r : Regs) (s : State) (a : Nat)
    (h : ∀ dst, destination i = some dst → a < dst ∨ dst + 16 ≤ a) :
    Memory.byte (conclude i f r s).mem a = Memory.byte s.mem a := by
  obtain ⟨w, -, e⟩ | ⟨dst, hd, -, e⟩ | ⟨dst, hd, -, e⟩ := conclude_cases i f r s
  · simp [e]
  · simp [e, Memory.byte_writeBlock_outside _ _ _ _ (h dst hd)]
  · simp [e, Memory.byte_writeBlock_outside _ _ _ _ (h dst hd)]

/-- The last stages keep memory canonical where the destination lies in the address space. -/
theorem conclude_wf (i : Instr) (f : Regs → Regs) (r : Regs) (s : State) (hm : Memory.wf s.mem)
    (h : ∀ dst, destination i = some dst → dst + 16 ≤ 2 ^ Config.fixed.addrBits) : Memory.wf (conclude i f r s).mem := by
  obtain ⟨w, -, e⟩ | ⟨dst, hd, -, e⟩ | ⟨dst, hd, -, e⟩ := conclude_cases i f r s
  · simpa only [e, State.retire_mem] using hm
  · simpa only [e, State.retire_mem, State.withMem_mem] using Memory.writeBlock_wf hm _ (h dst hd)
  · simpa only [e, State.retire_mem, State.drawn_mem, State.withMem_mem] using Memory.writeBlock_wf hm _ (h dst hd)

/-- An invocation that raises no fault writes inside the address space. -/
theorem destination_bound {c : Config} {i : Instr} (h : trapOf c i = none) (dst : Nat) (hd : destination i = some dst) :
    dst + 16 ≤ 2 ^ Config.fixed.addrBits := by
  obtain ⟨r, hr, rfl, hl, -⟩ := destination_region hd
  have := (((trapOf_eq_none_iff c i).1 h).2 r hr).1
  simpa [hl] using this

/-- Everything one invocation can do. -/
theorem exec_cases {i : Instr} {s t : State} (h : exec i s = .next t) :
    (∃ p, trapOf s.cfg i = some p ∧ t = takeFault (.invocation i) p.cause p.info s) ∨
    (trapOf s.cfg i = none ∧ t = conclude i (computeOf s.cfg i) (loadOf i s.mem) s) := by
  cases hp : trapOf s.cfg i with
  | some p => rw [exec_of_trap hp] at h; cases h; exact .inl ⟨p, rfl, rfl⟩
  | none => rw [exec_of_no_trap hp] at h; cases h; exact .inr ⟨rfl, rfl⟩

/-! ### The Block each operation computes, and the words a query returns -/

@[simp] theorem resultOf_xor2 (c : Config) (a b dst : Nat) (m : Memory) :
    resultOf c (.xor2 a b dst) m = xorBlock (Memory.readBlock m a) (Memory.readBlock m b) := by
  simp [resultOf, computeOf, loadOf, xor2Load, xor2Compute]

@[simp] theorem resultOf_xor3 (c : Config) (a b d dst : Nat) (m : Memory) :
    resultOf c (.xor3 a b d dst) m =
      xorBlock (xorBlock (Memory.readBlock m a) (Memory.readBlock m b)) (Memory.readBlock m d) := by
  simp [resultOf, computeOf, loadOf, xor3Load, xor3Compute]

@[simp] theorem resultOf_xor4 (c : Config) (a b d e dst : Nat) (m : Memory) :
    resultOf c (.xor4 a b d e dst) m =
      xorBlock (xorBlock (Memory.readBlock m a) (Memory.readBlock m b))
        (xorBlock (Memory.readBlock m d) (Memory.readBlock m e)) := by
  simp [resultOf, computeOf, loadOf, xor4Load, xor4Compute]

@[simp] theorem resultOf_aes4 (c : Config) (st ky : Nat) (m : Memory) :
    resultOf c (.aes4 st ky) m = aes4Block (Memory.readBlock m st) (Memory.readBlock m ky)
      (Memory.readBlock m (ky + 16)) (Memory.readBlock m (ky + 32)) := by
  simp [resultOf, computeOf, loadOf, aesLoad, aes4Compute, aes4Schedule, aesRounds, aes4Block]

@[simp] theorem resultOf_aes10 (c : Config) (st ky : Nat) (m : Memory) :
    resultOf c (.aes10 st ky) m = aes10Block (Memory.readBlock m st) (Memory.readBlock m ky)
      (Memory.readBlock m (ky + 16)) (Memory.readBlock m (ky + 32)) := by
  simp [resultOf, computeOf, loadOf, aesLoad, aes10Compute, aes10Schedule, aesRounds, aes10Block]

@[simp] theorem wordsOf_queryCPUID (c : Config) (leaf sub : Word) (m : Memory) :
    wordsOf c (.queryCPUID leaf sub) m = cpuidTable c leaf sub := by
  simp [wordsOf, computeOf, loadOf, queryCPUIDLoad, queryCPUIDCompute]

/-- An invocation whose checks pass and whose regions keep the discipline stores its Block (R8 `Done`). -/
theorem exec_done {i : Instr} {s : State} {dst : Nat} (ht : trapOf s.cfg i = none) (hd : destination i = some dst)
    (hr : Disciplined (regions i)) :
    exec i s = .next ((s.withMem (Memory.writeBlock s.mem dst (resultOf s.cfg i s.mem))).retire i .done) := by
  rw [exec_of_no_trap ht, conclude_storing hd hr]
  rfl

/-- An invocation whose checks pass but whose regions break the discipline stores a drawn Block (R8 `Undefined`). -/
theorem exec_undefined {i : Instr} {s : State} {dst : Nat} (ht : trapOf s.cfg i = none) (hd : destination i = some dst)
    (hr : ¬Disciplined (regions i)) :
    exec i s =
      .next (((s.withMem (Memory.writeBlock s.mem dst (Config.draw s.draws))).drawn).retire i .undefined) := by
  rw [exec_of_no_trap ht, conclude_drawing hd hr]

/-- The Block just written reads back. -/
theorem storesBlock_writeBlock (m : Memory) (dst : Nat) (b : Block) : StoresBlock dst b m (Memory.writeBlock m dst b) := by
  refine ⟨?_, fun _ ha => Memory.byte_writeBlock_outside _ _ _ _ ha⟩
  ext1 k hk
  rw [Memory.readBlock_getElem _ _ _ hk, Memory.byte_writeBlock_inside _ _ _ _ hk]

/-- A stored Block, as the bytes of memory. -/
theorem storesAt_writeBlock (m : Memory) (dst : Nat) (b : Block) (value : Nat → Byte)
    (h : ∀ k (hk : k < 16), b[k] = value k) : StoresAt dst value m (Memory.writeBlock m dst b) :=
  ⟨fun k hk => by rw [Memory.byte_writeBlock_inside _ _ _ _ hk, h k hk],
    fun _ ha => Memory.byte_writeBlock_outside _ _ _ _ ha⟩

end Sys2Proof.Machine
end

