-- ==== Sys2Proof/Laws/PerInstr.lean ====
section
/-! SUPPORT. Facts about every instruction as syntax, one lemma per constructor. -/

namespace Sys2Proof.Laws

open Sys2Proof.Machine

/-- `Shape`: an operation names at most five regions, each of 16 or 48 bytes (R47, R49), and the regions it writes are
exactly its destination Block (R42, R47). -/
def Shape.Statement (i : Instr) : Prop :=
  (regions i).length ≤ 5 ∧ (∀ r ∈ regions i, r.len = 16 ∨ r.len = 48) ∧
    (∀ r ∈ regions i, r.writes = true → r.len = 16 ∧ destination i = some r.base)

theorem Shape.queryCPUID (leaf subleaf : Word) : Shape.Statement (.queryCPUID leaf subleaf) := by
  simp [Shape.Statement, regions]

theorem Shape.xor2 (a b dst : Nat) : Shape.Statement (.xor2 a b dst) := by
  simp [Shape.Statement, regions, destination, sourceRegion, destRegion]

theorem Shape.xor3 (a b c dst : Nat) : Shape.Statement (.xor3 a b c dst) := by
  simp [Shape.Statement, regions, destination, sourceRegion, destRegion]

theorem Shape.xor4 (a b c d dst : Nat) : Shape.Statement (.xor4 a b c d dst) := by
  simp [Shape.Statement, regions, destination, sourceRegion, destRegion]

theorem Shape.aes4 (state keyMaterial : Nat) : Shape.Statement (.aes4 state keyMaterial) := by
  simp [Shape.Statement, regions, destination, stateRegion, keyRegion]

theorem Shape.aes10 (state keyMaterial : Nat) : Shape.Statement (.aes10 state keyMaterial) := by
  simp [Shape.Statement, regions, destination, stateRegion, keyRegion]

end Sys2Proof.Laws
end

