-- ==== Sys2Proof/Laws/Step.lean ====
section
/-! SUPPORT. Everything one input can do, said once. -/

namespace Sys2Proof.Machine

/-- Everything issuing can do, if it answers a next state. -/
theorem issue_cases {t : ThreadId} {d : Descriptor} {run : Instr → State → Host.Outcome State Fault Refusal}
    {s s' : State} (h : issue t d run s = .next s') :
    (s.stopped t = true ∧ s' = s) ∨
    (s.stopped t = false ∧ s.busy t = false ∧
      ((∃ op, decode d = .error (.reservedOpcode op) ∧
          s' = takeFault (.descriptor d) .illegalCommand (.op op) (s.onThread t)) ∨
       (∃ i, decode d = .ok i ∧ (trapOf s.cfg i = none → conflictsWithActive (regions i) s.active = false) ∧
          run i (s.onThread t) = .next s'))) := by
  unfold issue at h
  cases hs : s.stopped t with
  | true => simp only [hs, if_true] at h; cases h; exact .inl ⟨rfl, rfl⟩
  | false =>
    cases hb : s.busy t with
    | true => simp [hs, hb] at h
    | false =>
      refine .inr ⟨rfl, rfl, ?_⟩
      cases hd : decode d with
      | error e =>
        obtain ⟨op⟩ := e
        simp [hs, hb, hd] at h
        exact .inl ⟨op, rfl, h.symm⟩
      | ok i =>
        refine .inr ⟨i, rfl, ?_⟩
        by_cases hc : (conflictsWithActive (regions i) s.active && (trapOf s.cfg i).isNone) = true
        · simp [hs, hb, hd, hc] at h
        · simp [hs, hb, hd, hc] at h
          refine ⟨fun ht => ?_, h⟩
          simpa [ht] using hc

/-- Everything beginning an invocation can do. -/
theorem startFlight_cases (i : Instr) (s : State) :
    (∃ p, trapOf s.cfg i = some p ∧ startFlight i s = .next (takeFault (.invocation i) p.cause p.info s)) ∨
    (trapOf s.cfg i = none ∧
      startFlight i s =
        .next (s.withActive (s.active ++ [{ thread := s.thread, instr := i, regs := loadOf i s.mem }]))) := by
  cases h : trapOf s.cfg i with
  | some p => exact .inl ⟨p, rfl, by simp [startFlight, h]⟩
  | none => exact .inr ⟨rfl, by simp [startFlight, h]⟩

/-- Everything finishing can do, if it answers a next state. -/
theorem finish_cases {t : ThreadId} {s s' : State} (h : finish t s = .next s') :
    ∃ f, f ∈ s.active ∧ f.thread = t ∧ (s.active.find? fun f => f.thread == t) = some f ∧
      s' = conclude f.instr (computeOf s.cfg f.instr) f.regs
        ((s.withActive (s.active.eraseP fun g => g.thread == t)).onThread t) := by
  unfold finish at h
  cases hf : s.active.find? fun f => f.thread == t with
  | none => simp [hf] at h
  | some f =>
    simp only [hf] at h
    cases h
    exact ⟨f, List.mem_of_find?_eq_some hf, by simpa using List.find?_some hf, rfl, rfl⟩

/-- Everything a caller access can do, if it answers a next state. -/
theorem callerAccess_cases {r : Region} {s t s' : State} (h : callerAccess r s t = .next s') :
    s' = t ∧ r.base + r.len ≤ 2 ^ Config.fixed.addrBits ∧ conflictsWithActive [r] s.active = false := by
  unfold callerAccess at h
  split at h
  · cases h
  · split at h
    · cases h
    · cases h
      exact ⟨rfl, by omega, by simp_all⟩

/-! ### Runs -/

theorem run_zero {s s' : State} : Sys2Proof.core.run 0 s = .next s' ↔ s' = s :=
  ⟨fun h => by cases h; rfl, fun h => by subst h; rfl⟩

/-- A run of one more step is a step and then a run, on any machine of the host's interface. -/
theorem run_succ_of (M : Host.Core) (n : Nat) (s s' : M.State) :
    M.run (n + 1) s = .next s' ↔ ∃ s1, M.step s = .next s1 ∧ M.run n s1 = .next s' := by
  rw [Host.Core.run]
  cases M.step s with
  | next s1 => exact ⟨fun h => ⟨s1, rfl, h⟩, fun ⟨_, h1, h2⟩ => by cases h1; exact h2⟩
  | fault r => exact ⟨nofun, fun ⟨_, h1, _⟩ => nomatch h1⟩
  | refused r => exact ⟨nofun, fun ⟨_, h1, _⟩ => nomatch h1⟩

/-- A run of one more step is a step and then a run. -/
theorem run_succ {n : Nat} {s s' : State} :
    Sys2Proof.core.run (n + 1) s = .next s' ↔ ∃ s1, step s = .next s1 ∧ Sys2Proof.core.run n s1 = .next s' :=
  run_succ_of Sys2Proof.core n s s'

/-- What one step does: nothing without an input, else what the next input does. -/
theorem step_cases {s s' : State} (h : step s = .next s') :
    (s.inputs = [] ∧ s' = s) ∨ ∃ e rest, s.inputs = e :: rest ∧ accept e (s.withInputs rest) = .next s' := by
  unfold step at h
  split at h
  · rename_i hi
    cases h
    exact .inl ⟨hi, rfl⟩
  · rename_i e rest hi
    exact .inr ⟨e, rest, hi, h⟩

/-! ### Reset -/

theorem abandon_keeps (s : State) (f : InFlight) :
    (abandon s f).cfg = s.cfg ∧ (abandon s f).active = s.active ∧ (abandon s f).faults = s.faults ∧
      (abandon s f).ended = s.ended ∧ (abandon s f).thread = s.thread ∧ (abandon s f).inputs = s.inputs := by
  unfold abandon
  cases destination f.instr <;> simp

theorem foldl_abandon_keeps (fs : List InFlight) (s : State) :
    (fs.foldl abandon s).cfg = s.cfg ∧ (fs.foldl abandon s).faults = s.faults ∧
      (fs.foldl abandon s).ended = s.ended ∧ (fs.foldl abandon s).thread = s.thread ∧
      (fs.foldl abandon s).inputs = s.inputs := by
  induction fs generalizing s with
  | nil => simp
  | cons f fs ih =>
    have h := abandon_keeps s f
    simp only [List.foldl_cons]
    simp [ih, h]

/-- A reset changes no byte outside the destinations of the invocations in flight (R183). -/
theorem foldl_abandon_byte (fs : List InFlight) (s : State) (a : Nat)
    (h : ∀ f ∈ fs, ∀ dst, destination f.instr = some dst → a < dst ∨ dst + 16 ≤ a) :
    Memory.byte (fs.foldl abandon s).mem a = Memory.byte s.mem a := by
  induction fs generalizing s with
  | nil => rfl
  | cons f fs ih =>
    rw [List.foldl_cons, ih _ fun g hg => h g (by simp [hg])]
    unfold abandon
    cases hd : destination f.instr with
    | none => rfl
    | some dst => simp [Memory.byte_writeBlock_outside _ _ _ _ (h f (by simp) dst hd)]

theorem foldl_abandon_wf (fs : List InFlight) (s : State) (hm : Memory.wf s.mem)
    (h : ∀ f ∈ fs, ∀ dst, destination f.instr = some dst → dst + 16 ≤ 2 ^ Config.fixed.addrBits) :
    Memory.wf (fs.foldl abandon s).mem := by
  induction fs generalizing s with
  | nil => exact hm
  | cons f fs ih =>
    refine ih (abandon s f) ?_ fun g hg => h g (by simp [hg])
    unfold abandon
    cases hd : destination f.instr with
    | none => exact hm
    | some dst =>
      simpa only [State.drawn_mem, State.withMem_mem] using
        Memory.writeBlock_wf hm _ (h f (by simp) dst hd)

/-! ### Threads -/

theorem stopped_eq_false_iff (s : State) (t : ThreadId) : s.stopped t = false ↔ ∀ e ∈ s.faults, e.thread ≠ t := by
  simp [State.stopped]

theorem busy_eq_false_iff (s : State) (t : ThreadId) : s.busy t = false ↔ ∀ f ∈ s.active, f.thread ≠ t := by
  simp [State.busy]

theorem lt_freeThread_of_mem (ts : List ThreadId) (t : ThreadId) (h : t ∈ ts) :
    t < ts.foldr (fun t n => max (t + 1) n) 0 := by
  induction ts with
  | nil => simp at h
  | cons u us ih =>
    simp only [List.foldr_cons]
    rcases List.mem_cons.1 h with rfl | h
    · exact Nat.lt_of_lt_of_le (Nat.lt_succ_self t) (Nat.le_max_left ..)
    · exact Nat.lt_of_lt_of_le (ih h) (Nat.le_max_right ..)

/-- The free thread has faulted in nothing and has nothing in flight. -/
theorem freeThread_free (s : State) : s.stopped s.freeThread = false ∧ s.busy s.freeThread = false := by
  rw [stopped_eq_false_iff, busy_eq_false_iff]
  constructor
  · intro e he h
    have := lt_freeThread_of_mem (s.active.map (fun f => f.thread) ++ s.faults.map (fun e => e.thread)) e.thread
      (List.mem_append.2 (.inr (List.mem_map.2 ⟨e, he, rfl⟩)))
    rw [h] at this
    exact Nat.lt_irrefl _ this
  · intro f hf h
    have := lt_freeThread_of_mem (s.active.map (fun f => f.thread) ++ s.faults.map (fun e => e.thread)) f.thread
      (List.mem_append.2 (.inl (List.mem_map.2 ⟨f, hf, rfl⟩)))
    rw [h] at this
    exact Nat.lt_irrefl _ this

end Sys2Proof.Machine
end

