-- ==== Sys2Proof/Tests/Slice0.lean ====
section
/-! SUPPORT. Tests, with expected values from 95_test_vectors.md, and for each statement with hypotheses a witness: a
concrete state and operands that meet them together. -/

namespace Sys2Proof.Machine

/-! ### The example machines of 95_test_vectors.md section 0 -/

/-- `CFG_A`. -/
def cfgA : Config :=
  { hasAes := true, hasSimd := true
    cpuid := [⟨1, 0, ⟨0, 0, 0x02000000, 0x04000000⟩⟩,
      ⟨0xffffffff, 0xffffffff, ⟨0x11111111, 0x22222222, 0x33333333, 0x44444444⟩⟩]
    cpuidRest := some ⟨0, 0, 0, 0⟩
    areas := [⟨0, 0x2000, true, true⟩, ⟨0x2000, 0x30, true, false⟩, ⟨0x2030, 0xdfd0, true, true⟩] }

/-- `CFG_B`. -/
def cfgB : Config :=
  { cfgA with hasAes := false, cpuid := ⟨1, 0, ⟨0, 0, 0, 0x04000000⟩⟩ :: cfgA.cpuid }

/-- `CFG_C`. -/
def cfgC : Config := { cfgA with hasAes := false }

/-- `CFG_A` without SIMD. -/
def cfgNoSimd : Config := { cfgA with hasSimd := false }

/-- The Block whose bytes, byte 0 first, are the hexadecimal digits of the number. -/
def hexBlock (v : Nat) : Block := Vector.ofFn fun i : Fin 16 => BitVec.ofNat 8 (v / 256 ^ (15 - i.val))

/-- The launch state with a configuration and Blocks in memory, at rising addresses. -/
def machine (c : Config) (blocks : List (Nat × Nat)) : State :=
  { State.reset with
    cfg := c
    mem := blocks.flatMap fun p => (List.range 16).map fun k => (p.1 + k, BitVec.ofNat 8 (p.2 / 256 ^ (15 - k))) }

def bP : Nat := 0x0123456789abcdeffedcba9876543210
def bQ : Nat := 0xffeeddccbbaa99887766554433221100
def bR : Nat := 0xdeadbeefcafebabe0123456789abcdef
def bW : Nat := 0x00ff00ff00ff00ff00ff00ff00ff00ff
def bCNT : Nat := 0x000102030405060708090a0b0c0d0e0f

/-- `P`, `Q`, `R`, `W` at `a`, `b`, `c`, `d` (section 4). -/
def xorMachine : State := machine cfgA [(0x100, bP), (0x110, bQ), (0x120, bR), (0x130, bW)]

/-- `CNT` at `0x1000`, `KM` at `0x2000`, `P` at `0x100`, `Q` at `0x110` (section 6). -/
def aesMachine (c : Config) : State :=
  machine c [(0x100, bP), (0x110, bQ), (0x1000, bCNT), (0x2000, 0x101112131415161718191a1b1c1d1e1f),
    (0x2010, 0x202122232425262728292a2b2c2d2e2f), (0x2020, 0x303132333435363738393a3b3c3d3e3f)]

/-- The state an invocation leaves, where it answers one. -/
def after (i : Instr) (s : State) : State :=
  match exec i s with
  | .next t => t
  | _ => s

/-- The state the next step leaves, where it answers one. -/
def stepped (s : State) : State :=
  match step s with
  | .next t => t
  | _ => s

/-- The step answers a next state. -/
def answers (s : State) : Bool :=
  match step s with
  | .next _ => true
  | _ => false

/-! ### WellFormed refuses an ill-formed term for each check -/

theorem test_wellFormed_xor2_a : wellFormed (.xor2 (2 ^ 64) 0 0) = false := by decide
theorem test_wellFormed_xor2_b : wellFormed (.xor2 0 (2 ^ 64) 0) = false := by decide
theorem test_wellFormed_xor2_dst : wellFormed (.xor2 0 0 (2 ^ 64)) = false := by decide
theorem test_wellFormed_xor3 : [wellFormed (.xor3 (2 ^ 64) 0 0 0), wellFormed (.xor3 0 (2 ^ 64) 0 0),
    wellFormed (.xor3 0 0 (2 ^ 64) 0), wellFormed (.xor3 0 0 0 (2 ^ 64))] = [false, false, false, false] := by decide
theorem test_wellFormed_xor4 : [wellFormed (.xor4 (2 ^ 64) 0 0 0 0), wellFormed (.xor4 0 (2 ^ 64) 0 0 0),
    wellFormed (.xor4 0 0 (2 ^ 64) 0 0), wellFormed (.xor4 0 0 0 (2 ^ 64) 0), wellFormed (.xor4 0 0 0 0 (2 ^ 64))]
    = [false, false, false, false, false] := by decide
theorem test_wellFormed_aes : [wellFormed (.aes4 (2 ^ 64) 0), wellFormed (.aes4 0 (2 ^ 64)),
    wellFormed (.aes10 (2 ^ 64) 0), wellFormed (.aes10 0 (2 ^ 64))] = [false, false, false, false] := by decide
theorem test_wellFormed_top : wellFormed (.xor2 (2 ^ 64 - 1) (2 ^ 64 - 1) (2 ^ 64 - 1)) = true := by decide

/-! ### Decoding: the descriptors of section 7, written out -/

theorem test_decode_queryCPUID : decode #v[0x01, 0, 0, 0, 0, 0, 0, 0, 0xff, 0xff, 0xff, 0xff, 0, 0, 0, 0,
    0xff, 0xff, 0xff, 0xff, 0, 0, 0, 0, 0, 0, 0, 0, 0, 0, 0, 0, 0, 0, 0, 0, 0, 0, 0, 0, 0, 0, 0, 0, 0, 0, 0, 0]
    = .ok (.queryCPUID 0xffffffff 0xffffffff) := by decide
theorem test_decode_xor2 : decode #v[0x02, 0, 0, 0, 0, 0, 0, 0, 0x00, 0x01, 0, 0, 0, 0, 0, 0,
    0x10, 0x01, 0, 0, 0, 0, 0, 0, 0x40, 0x01, 0, 0, 0, 0, 0, 0, 0, 0, 0, 0, 0, 0, 0, 0, 0, 0, 0, 0, 0, 0, 0, 0]
    = .ok (.xor2 0x100 0x110 0x140) := by decide
theorem test_decode_xor3 : decode #v[0x03, 0, 0, 0, 0, 0, 0, 0, 0x00, 0x01, 0, 0, 0, 0, 0, 0,
    0x10, 0x01, 0, 0, 0, 0, 0, 0, 0x20, 0x01, 0, 0, 0, 0, 0, 0, 0x40, 0x01, 0, 0, 0, 0, 0, 0, 0, 0, 0, 0, 0, 0, 0, 0]
    = .ok (.xor3 0x100 0x110 0x120 0x140) := by decide
theorem test_decode_xor4 : decode #v[0x04, 0, 0, 0, 0, 0, 0, 0, 0x00, 0x01, 0, 0, 0, 0, 0, 0,
    0x10, 0x01, 0, 0, 0, 0, 0, 0, 0x20, 0x01, 0, 0, 0, 0, 0, 0, 0x30, 0x01, 0, 0, 0, 0, 0, 0, 0x40, 0x01, 0, 0, 0, 0, 0, 0]
    = .ok (.xor4 0x100 0x110 0x120 0x130 0x140) := by decide
theorem test_decode_aes4 : decode #v[0x05, 0, 0, 0, 0, 0, 0, 0, 0x00, 0x10, 0, 0, 0, 0, 0, 0,
    0x00, 0x20, 0, 0, 0, 0, 0, 0, 0, 0, 0, 0, 0, 0, 0, 0, 0, 0, 0, 0, 0, 0, 0, 0, 0, 0, 0, 0, 0, 0, 0, 0]
    = .ok (.aes4 0x1000 0x2000) := by decide
theorem test_decode_aes10 : decode #v[0x06, 0, 0, 0, 0, 0, 0, 0, 0x10, 0x10, 0, 0, 0, 0, 0, 0,
    0x00, 0x20, 0, 0, 0, 0, 0, 0, 0, 0, 0, 0, 0, 0, 0, 0, 0, 0, 0, 0, 0, 0, 0, 0, 0, 0, 0, 0, 0, 0, 0, 0]
    = .ok (.aes10 0x1010 0x2000) := by decide
/-- F18 to F20: reserved opcodes. -/
theorem test_decode_reserved : [0x00, 0x07, 0xff].map (fun op : Byte => decode ((Vector.replicate 48 0).set 0 op))
    = [.error (.reservedOpcode 0x00), .error (.reservedOpcode 0x07), .error (.reservedOpcode 0xff)] := by decide
/-- Section 7: 64-bit fields, least significant byte first. -/
theorem test_encode : encode (.xor2 0x00007fffdeadbee1 0xfffffffffffffff0 0x8000000000000000)
    = #v[0x02, 0, 0, 0, 0, 0, 0, 0, 0xe1, 0xbe, 0xad, 0xde, 0xff, 0x7f, 0x00, 0x00,
      0xf0, 0xff, 0xff, 0xff, 0xff, 0xff, 0xff, 0xff, 0, 0, 0, 0, 0, 0, 0, 0x80,
      0, 0, 0, 0, 0, 0, 0, 0, 0, 0, 0, 0, 0, 0, 0, 0] := by decide

/-! ### The textual form (R71) -/

theorem test_text_reads : readInvocation "xor2(0x100, 272, 0x140)".toList = some (.xor2 0x100 0x110 0x140) := by decide
theorem test_text_wrong_count : readInvocation "xor2(0x100, 0x110)".toList = none := by decide

/-! ### `queryCPUID` (section 3) -/

/-- Q1. -/
theorem test_Q1 : (after (.queryCPUID 1 0) (machine cfgA [])).ended
    = [⟨0, .queryCPUID 1 0, .returned ⟨0, 0, 0x02000000, 0x04000000⟩⟩] := by decide
/-- Q4 and Q5. -/
theorem test_Q4_Q5 : (after (.queryCPUID 7 0) (after (.queryCPUID 0xffffffff 0xffffffff) (machine cfgNoSimd []))).ended
    = [⟨0, .queryCPUID 7 0, .returned ⟨0, 0, 0, 0⟩⟩, ⟨0, .queryCPUID 0xffffffff 0xffffffff,
        .returned ⟨0x11111111, 0x22222222, 0x33333333, 0x44444444⟩⟩] := by decide

/-! ### The XOR operations (section 4) -/

/-- X2. -/
theorem test_X2 : storedBlock (.xor2 0x100 0x110 0x140) 0x140 xorMachine
    = some (hexBlock 0xfecd98ab3201546789baefdc45762310) := by decide
/-- X10: the destination is a source. -/
theorem test_X10 : storedBlock (.xor2 0x100 0x110 0x100) 0x100 xorMachine
    = some (hexBlock 0xfecd98ab3201546789baefdc45762310) := by decide
/-- X5. -/
theorem test_X5 : storedBlock (.xor3 0x100 0x110 0x120 0x140) 0x140 xorMachine
    = some (hexBlock 0x20602644f8ffeed98899aabbccddeeff) := by decide
/-- X9. -/
theorem test_X9 : storedBlock (.xor3 0x100 0x110 0x120 0x140) 0x140
    (machine cfgA [(0x100, bCNT), (0x110, 2 ^ 128 - 1), (0x120, 0x0f0e0d0c0b0a09080706050403020100)])
    = some (hexBlock 0xf0f0f0f0f0f0f0f0f0f0f0f0f0f0f0f0) := by decide
/-- X7. -/
theorem test_X7 : storedBlock (.xor4 0x100 0x110 0x120 0x130 0x140) 0x140 xorMachine
    = some (hexBlock 0x209f26bbf800ee268866aa44cc22ee00) := by decide
/-- X12. -/
theorem test_X12 : storedBlock (.xor4 0x100 0x100 0x110 0x110 0x100) 0x100 xorMachine = some (hexBlock 0) := by decide

/-! ### The AES round and the AES operations (sections 2 and 5) -/

/-- K4: the mapping of bytes to rows and columns. -/
theorem test_K4 : aesRound (hexBlock 0x5d47535d726f74636556747365545b7b) (hexBlock 0x5d6e6f726575475b2979616853286948)
    = hexBlock 0x95e5d7de584b108bc5a3db9f2f1c31a8 := by decide
/-- E6: row rotation. -/
theorem test_E6 : aesRound (hexBlock 0x00000000000100000000000000000000) zeroBlock
    = hexBlock 0x425d7c7c636363636363636363636363 := by decide
set_option maxRecDepth 20000 in
/-- A2. -/
theorem test_A2 : storedBlock (.aes4 0x1000 0x2000) 0x1000 (aesMachine cfgA)
    = some (hexBlock 0xca5e8120bea1077e28cf2e06668019ed) := by decide
/-- A8: only `I` non-zero, so the first round does not use it. -/
theorem test_A8 : storedBlock (.aes4 0x1000 0x2000) 0x1000
    (machine cfgA [(0x1000, 0), (0x2000, 0x101112131415161718191a1b1c1d1e1f), (0x2010, 0), (0x2020, 0)])
    = some (hexBlock 0x382fcabca8fdbb7cf2532ab79c8df9c3) := by decide
set_option maxRecDepth 20000 in
/-- B2. -/
theorem test_B2 : storedBlock (.aes10 0x1000 0x2000) 0x1000 (aesMachine cfgA)
    = some (hexBlock 0x6e6344ee5c46d91c582c17b21a2e091b) := by decide
/-! ### Faults, priorities and broken disciplines (sections 4 and 6) -/

/-- R150: the codes. -/
theorem test_codes : [Cause.illegalCommand, .illegalInstruction, .memoryFault].map Cause.code = [1, 2, 3] := by decide
/-- The table word of each row is run by the very next step. -/
theorem test_table_words : [1, 2, 3, 4, 5, 6].map (fun w =>
    (stepped ({ State.reset with cfg := cfgA }.withFetchWord 8 w)).ended.map fun e => e.instr)
    = [[.queryCPUID 0 0], [.xor2 0 0 0], [.xor3 0 0 0 0], [.xor4 0 0 0 0 0], [.aes4 0 0], [.aes10 0 0]] := by decide
/-- So it is from reset, whatever the open parameters are. -/
theorem test_table_words_from_reset :
    ∀ w ∈ [1, 2, 3, 4, 5, 6], answers (State.reset.withFetchWord 8 w) = true := by decide
/-- F3: the table says the extension is there, the configuration decides. -/
theorem test_F3 : after (.aes4 0x1000 0x2000) (aesMachine cfgC)
    = faulted (.aes4 0x1000 0x2000) .illegalInstruction (.op 0x05) (aesMachine cfgC) := by decide
/-- F5. -/
theorem test_F5 : after (.xor2 0x100 0x110 0x140) (aesMachine cfgNoSimd)
    = faulted (.xor2 0x100 0x110 0x140) .illegalInstruction (.op 0x02) (aesMachine cfgNoSimd) := by decide
/-- F8: eight bytes of the first source are not readable. -/
theorem test_F8 : after (.xor2 0xfff8 0x110 0x140) (aesMachine cfgA)
    = faulted (.xor2 0xfff8 0x110 0x140) .memoryFault (.base 0xfff8) (aesMachine cfgA) := by decide
/-- F9: a region that passes the top of the address space. -/
theorem test_F9 : after (.xor2 0x100 0xfffffffffffffff8 0x140) (aesMachine cfgA)
    = faulted (.xor2 0x100 0xfffffffffffffff8 0x140) .memoryFault (.base 0xfffffffffffffff8) (aesMachine cfgA) := by decide
/-- F11: the state must be writable, and the fault outranks the overlap. -/
theorem test_F11 : after (.aes4 0x2000 0x2000) (aesMachine cfgA)
    = faulted (.aes4 0x2000 0x2000) .memoryFault (.base 0x2000) (aesMachine cfgA) := by decide
/-- F13: the missing extension outranks the inaccessible region. -/
theorem test_F13 : after (.aes4 0x20000 0x30000) (aesMachine cfgB)
    = faulted (.aes4 0x20000 0x30000) .illegalInstruction (.op 0x05) (aesMachine cfgB) := by decide
/-- X15: no fault, and the bytes beside the destination are as they were. -/
theorem test_X15 : (after (.xor2 0x100 0x110 0x108) xorMachine).ended = [⟨0, .xor2 0x100 0x110 0x108, .undefined⟩]
    ∧ Memory.byte (after (.xor2 0x100 0x110 0x108) xorMachine).mem 0x107 = 0xef
    ∧ Memory.byte (after (.xor2 0x100 0x110 0x108) xorMachine).mem 0x118 = 0x77 := by decide
/-- X16: two sources overlap. -/
theorem test_X16 : (after (.xor2 0x100 0x108 0x140) xorMachine).ended
    = [⟨0, .xor2 0x100 0x108 0x140, .undefined⟩] := by decide
/-- F14: the state lies inside the key material. -/
theorem test_F14 : (after (.aes4 0x1000 0x0ff0) (aesMachine cfgA)).ended
    = [⟨0, .aes4 0x1000 0x0ff0, .undefined⟩] := by decide
/-- F18: the reserved opcode faults at the step. -/
theorem test_F18 : stepped { aesMachine cfgA with inputs := [.call 3 ((Vector.replicate 48 0).set 0 0x07)] }
    = { aesMachine cfgA with
      thread := 3
      faults := [⟨3, .descriptor ((Vector.replicate 48 0).set 0 0x07), .illegalCommand, .op 0x07⟩] } := by decide

/-! ### Witnesses

Each theorem shows a concrete state and operands that meet the hypotheses of the statement it is named after. -/

theorem xorReady_of {c : Config} {i : Instr} (hs : c.hasSimd = true) (ht : trapOf c i = none)
    (hr : regionsOk (regions i) = true) : XorReady c i :=
  ⟨hs, ((trapOf_eq_none_iff c i).1 ht).2, (regionsOk_iff _).1 hr⟩

theorem aesReady_of {c : Config} {i : Instr} (hs : c.hasSimd = true) (ha : c.hasAes = true) (ht : trapOf c i = none)
    (hr : regionsOk (regions i) = true) : AesReady c i :=
  ⟨hs, ha, ((trapOf_eq_none_iff c i).1 ht).2, (regionsOk_iff _).1 hr⟩

theorem accessible_of {c : Config} {i : Instr} (ht : trapOf c i = none) : ∀ r ∈ regions i, Accessible c r :=
  ((trapOf_eq_none_iff c i).1 ht).2

theorem free_of {s : State} {t : ThreadId} (hs : s.stopped t = false) (hb : s.busy t = false) : MayIssue s t := ⟨hs, hb⟩

/-- The descriptors the witnesses issue. -/
def callAes : Descriptor := encode (.aes4 0x1000 0x2000)
def callXor : Descriptor := encode (.xor2 0x100 0x110 0x140)
def callReserved : Descriptor := (Vector.replicate 48 0).set 0 0xff

/-- Thread 0 has `aes4` in flight. -/
def flying (rest : List Input) : State :=
  { aesMachine cfgA with
    active := [⟨0, .aes4 0x1000 0x2000, loadOf (.aes4 0x1000 0x2000) (aesMachine cfgA).mem⟩], inputs := rest }

theorem flying_inv (rest : List Input) : Inv (flying rest) where
  memory := by show Memory.wf (aesMachine cfgA).mem; decide
  oneInFlight := List.pairwise_singleton _ _
  runningNotStopped := by
    intro f hf
    obtain rfl := List.mem_singleton.1 hf
    rfl
  admitted := by
    intro f hf
    obtain rfl := List.mem_singleton.1 hf
    exact ⟨by decide, by show trapOf cfgA _ = none; decide⟩
  noConflict := List.pairwise_singleton _ _
  loaded := by
    intro f hf
    obtain rfl := List.mem_singleton.1 hf
    rfl
  oneFault := List.Pairwise.nil

/-- A state in which thread 0 has faulted. -/
def stoppedState (rest : List Input) : State := { after (.aes4 0x1000 0x2000) (aesMachine cfgB) with inputs := rest }

theorem noConflict_of {rs : List Region} {fs : List InFlight} (h : conflictsWithActive rs fs = false) :
    NoConflict rs fs := (noConflict_iff rs fs).2 h

theorem conflict_of {rs : List Region} {fs : List InFlight} (h : conflictsWithActive rs fs = true) :
    ¬NoConflict rs fs := fun hn => by simp [(noConflict_iff rs fs).1 hn] at h

theorem not_disciplined_of {rs : List Region} (h : regionsOk rs = false) : ¬Disciplined rs := fun hd => by
  simp [(regionsOk_iff rs).2 hd] at h

/-- Every invocation answers a next state. -/
theorem exec_after (i : Instr) (s : State) : exec i s = .next (after i s) := by
  cases h : trapOf s.cfg i with
  | some p => simp [after, exec_of_trap h]
  | none => simp [after, exec_of_no_trap h]

theorem step_of {s : State} (h : answers s = true) : step s = .next (stepped s) := by
  unfold answers at h
  unfold stepped
  cases e : step s <;> simp_all

theorem xor2_ready (s : State) (h : s.cfg = cfgA) : XorReady s.cfg (.xor2 0x100 0x110 0x140) := by
  rw [h]; exact xorReady_of (by decide) (by decide) (by decide)
theorem xor3_ready (s : State) (h : s.cfg = cfgA) : XorReady s.cfg (.xor3 0x100 0x110 0x120 0x140) := by
  rw [h]; exact xorReady_of (by decide) (by decide) (by decide)
theorem xor4_ready (s : State) (h : s.cfg = cfgA) : XorReady s.cfg (.xor4 0x100 0x110 0x120 0x130 0x140) := by
  rw [h]; exact xorReady_of (by decide) (by decide) (by decide)
theorem aes4_ready : AesReady cfgA (.aes4 0x1000 0x2000) :=
  aesReady_of (by decide) (by decide) (by decide) (by decide)
theorem aes10_ready : AesReady cfgA (.aes10 0x1000 0x2000) :=
  aesReady_of (by decide) (by decide) (by decide) (by decide)
theorem decode_callAes : decode callAes = .ok (.aes4 0x1000 0x2000) := by decide
theorem decode_callXor : decode callXor = .ok (.xor2 0x100 0x110 0x140) := by decide

/-! #### Encoding -/

theorem witness_DecodeOfEncode : wellFormed (.xor4 (2 ^ 64 - 1) 0 1 2 (2 ^ 64 - 1)) = true := by decide

/-- A descriptor whose ignored bytes are all ones, beside the clean one, and the places where used and ignored bytes
meet. -/
theorem witness_IgnoredBytes :
    let d : Descriptor := #v[0x01, 0xff, 0xff, 0xff, 0xff, 0xff, 0xff, 0xff, 0x01, 0, 0, 0, 0xff, 0xff, 0xff, 0xff,
      0, 0, 0, 0, 0xff, 0xff, 0xff, 0xff, 0xff, 0xff, 0xff, 0xff, 0xff, 0xff, 0xff, 0xff,
      0xff, 0xff, 0xff, 0xff, 0xff, 0xff, 0xff, 0xff, 0xff, 0xff, 0xff, 0xff, 0xff, 0xff, 0xff, 0xff]
    decode d = .ok (.queryCPUID 1 0)
    ∧ (∀ k : Fin 48, usedByte (.queryCPUID 1 0) k = true → (encode (.queryCPUID 1 0))[k.val] = d[k.val])
    ∧ [1, 7, 12, 15, 20, 47].map (usedByte (.queryCPUID 1 0)) = [false, false, false, false, false, false]
    ∧ [0, 8, 11, 16, 19].map (usedByte (.queryCPUID 1 0)) = [true, true, true, true, true]
    ∧ usedByte (.aes4 0 0) 23 = true ∧ usedByte (.aes4 0 0) 24 = false := by decide

/-- Each clause at its opcode, the last at both ends of the reserved range and at `0x00`. -/
theorem witness_DecodingFollowsItsTable :
    (∀ op ∈ [(0x01 : Byte), 0x02, 0x03, 0x04, 0x05, 0x06, 0x00, 0x07, 0xff],
      ((Vector.replicate 48 (0xff : Byte)).set 0 op)[0] = op) ∧ 0x07 ≤ (0x07 : Byte).toNat ∧ 0x07 ≤ (0xff : Byte).toNat := by
  decide

theorem witness_DecodedInvocations : decode ((Vector.replicate 48 (0xff : Byte)).set 0 0x04)
    = .ok (.xor4 (2 ^ 64 - 1) (2 ^ 64 - 1) (2 ^ 64 - 1) (2 ^ 64 - 1) (2 ^ 64 - 1)) := by decide

theorem witness_TextNames : wellFormed (.xor3 0 (2 ^ 64 - 1) 0x100 7) = true := by decide

/-! #### The step -/

/-- Both ways in: an invocation that conflicts with nothing, and one that faults. -/
theorem witness_StepRuns :
    (∃ s : State, s.inputs = [.call 0 callAes] ∧ MayIssue s 0 ∧ decode callAes = .ok (.aes4 0x1000 0x2000)
      ∧ NoConflict (regions (.aes4 0x1000 0x2000)) s.active)
    ∧ ∃ s : State, s.inputs = [.call 1 (encode (.aes4 0x2000 0x2000))] ∧ MayIssue s 1
      ∧ decode (encode (.aes4 0x2000 0x2000)) = .ok (.aes4 0x2000 0x2000)
      ∧ trapOf s.cfg (.aes4 0x2000 0x2000) ≠ none :=
  ⟨⟨{ aesMachine cfgA with inputs := [.call 0 callAes] }, rfl, ⟨by decide, by decide⟩, decode_callAes,
      noConflict_of (by decide)⟩,
    ⟨flying [.call 1 (encode (.aes4 0x2000 0x2000))], rfl, ⟨by decide, by decide⟩, by decide, by decide⟩⟩

theorem witness_NextStepRunsTheTableWord :
    decodeTableWord 8 2 = some (.xor2 0 0 0) ∧ NoConflict (regions (.xor2 0 0 0)) (flying []).active :=
  ⟨by decide, noConflict_of (by decide)⟩

theorem witness_ReservedOpcode :
    MayIssue (flying [.call 1 callReserved]) 1 ∧ MayIssue (flying [.start 1 (Vector.replicate 48 0)]) 1
    ∧ 0x07 ≤ (callReserved[0]).toNat ∧ (Vector.replicate 48 (0 : Byte))[0] = 0x00 :=
  ⟨⟨by decide, by decide⟩, ⟨by decide, by decide⟩, by decide, by decide⟩

theorem witness_IdleCore : State.reset.inputs = [] := rfl

/-! #### `queryCPUID` -/

theorem witness_QueryHasNoSideEffect :
    ∃ t u, exec (.queryCPUID 1 0) (aesMachine cfgA) = .next t ∧ exec (.aes4 0x1000 0x2000) (aesMachine cfgA) = .next u :=
  ⟨_, _, exec_after _ _, exec_after _ _⟩

theorem witness_QueryIsStable : ∃ s', Sys2Proof.core.run 1 (flying [.finish 0]) = .next s' :=
  ⟨_, (run_succ (n := 0)).2 ⟨_, step_of (by decide), rfl⟩⟩

theorem witness_ProbedCaller : ∃ t v, CfgConsistent (aesMachine cfgA).cfg
    ∧ exec (.queryCPUID 1 0) (aesMachine cfgA) = .next t
    ∧ t.ended = { thread := 0, instr := .queryCPUID 1 0, ending := .returned ⟨0, 0, 0x02000000, 0x04000000⟩ }
      :: (aesMachine cfgA).ended
    ∧ (0x02000000 : Word).getLsbD 25 = true ∧ (0x04000000 : Word).getLsbD 26 = true
    ∧ Sys2Proof.core.run 0 t = .next t ∧ exec (.aes4 0x1000 0x2000) t = .next v :=
  ⟨_, _, by show CfgConsistent cfgA; unfold CfgConsistent; decide, exec_after _ _, by decide, by decide, by decide, rfl,
    exec_after _ _⟩

theorem witness_TableDecides : (∀ leaf subleaf, Instr.aes4 0x1000 0x2000 ≠ .queryCPUID leaf subleaf)
    ∧ ∃ t, exec (.aes4 0x1000 0x2000) (aesMachine cfgA) = .next t :=
  ⟨fun _ _ h => Instr.noConfusion h, _, exec_after _ _⟩

/-! #### The XOR operations -/

theorem witness_Xor2Stores : XorReady xorMachine.cfg (.xor2 0x100 0x110 0x140) := xor2_ready _ rfl
theorem witness_Xor3Stores : XorReady xorMachine.cfg (.xor3 0x100 0x110 0x120 0x140) := xor3_ready _ rfl
theorem witness_Xor4Stores : XorReady xorMachine.cfg (.xor4 0x100 0x110 0x120 0x130 0x140) := xor4_ready _ rfl

/-- Each identity's premises, equal values standing at different addresses. -/
theorem witness_XorIdentities :
    let s := machine cfgA [(0x100, bP), (0x110, bP), (0x120, 0), (0x130, 0)]
    XorReady s.cfg (.xor2 0x100 0x110 0x140) ∧ XorReady s.cfg (.xor2 0x100 0x120 0x140)
    ∧ XorReady s.cfg (.xor3 0x100 0x110 0x120 0x140) ∧ XorReady s.cfg (.xor4 0x100 0x110 0x120 0x130 0x140)
    ∧ Memory.readBlock s.mem 0x100 = Memory.readBlock s.mem 0x110
    ∧ Memory.readBlock s.mem 0x120 = Memory.readBlock s.mem 0x130 ∧ Memory.readBlock s.mem 0x120 = zeroBlock :=
  ⟨xor2_ready _ rfl, xorReady_of (by decide) (by decide) (by decide), xor3_ready _ rfl, xor4_ready _ rfl,
    by decide, by decide, by decide⟩

/-- Every form: the destination at each source, sources at one address, and regions that just touch. -/
theorem witness_IdenticalRegions : ∀ i ∈ [Instr.xor2 0x100 0x110 0x100, .xor2 0x100 0x110 0x110, .xor2 0x100 0x100 0x110,
      .xor2 0x100 0x100 0x100, .xor3 0x100 0x110 0x120 0x100, .xor3 0x100 0x110 0x120 0x110, .xor3 0x100 0x110 0x120 0x120,
      .xor3 0x100 0x100 0x100 0x100, .xor4 0x100 0x110 0x120 0x130 0x130, .xor4 0x100 0x100 0x110 0x110 0x100],
    XorReady cfgA i := by
  intro i hi
  simp only [List.mem_cons, List.not_mem_nil, or_false] at hi
  obtain rfl | rfl | rfl | rfl | rfl | rfl | rfl | rfl | rfl | rfl := hi
  all_goals exact xorReady_of (by decide) (by decide) (by decide)

theorem witness_IdenticalRegions_addresses : [0x100, 0x110, 0x120, 0x130, 0x130].Pairwise AddressesApart
    ∧ [0x100, 0x110, 0x120, 0x100].Pairwise AddressesApart ∧ [0x100, 0x110, 0x110].Pairwise AddressesApart := by
  simp [AddressesApart]

/-- Two states that agree in bit 7 of byte 15 of every source, and in no other byte of them. -/
theorem witness_XorLanes :
    let s := machine cfgA [(0x100, 0x80), (0x110, 0), (0x120, 0x80), (0x130, 0)]
    let s' := machine cfgA [(0x100, 2 ^ 128 - 0x80), (0x110, 2 ^ 128 - 0x100), (0x120, 2 ^ 128 - 0x80),
      (0x130, 2 ^ 128 - 0x100)]
    XorReady s.cfg (.xor2 0x100 0x110 0x140) ∧ XorReady s'.cfg (.xor2 0x100 0x110 0x140)
    ∧ XorReady s.cfg (.xor3 0x100 0x110 0x120 0x140) ∧ XorReady s'.cfg (.xor3 0x100 0x110 0x120 0x140)
    ∧ XorReady s.cfg (.xor4 0x100 0x110 0x120 0x130 0x140) ∧ XorReady s'.cfg (.xor4 0x100 0x110 0x120 0x130 0x140)
    ∧ (∀ p ∈ [0x100, 0x110, 0x120, 0x130],
      (Memory.byte s.mem (p + 15)).getLsbD 7 = (Memory.byte s'.mem (p + 15)).getLsbD 7)
    ∧ ∀ i : Instr, ∃ t t', exec i s = .next t ∧ exec i s' = .next t' :=
  ⟨xor2_ready _ rfl, xor2_ready _ rfl, xor3_ready _ rfl, xor3_ready _ rfl, xor4_ready _ rfl, xor4_ready _ rfl,
    by decide, fun _ => ⟨_, _, exec_after _ _, exec_after _ _⟩⟩

/-! #### The AES operations -/

theorem witness_Substitution : (0x53 : Byte) ≠ 0 ∧ gmul 0x53 0xca = 1 ∧ sbox 0x53 = 0xed := by decide

theorem witness_ColumnMixing : ∀ k : Fin 4, (hexBlock 0xc6c6c6c6c6c6c6c6c6c6c6c6c6c6c6c6)[12 + k.val] = 0xc6 := by decide

/-- The last byte of the round, whose four state bytes are 12, 1, 6 and 11. -/
theorem witness_RoundByte :
    (∀ r (_ : r < 4), (hexBlock bCNT)[r + 4 * ((15 / 4 + r) % 4)]
      = (hexBlock 0xff01ffffffff06ffffffff0b0cffffff)[r + 4 * ((15 / 4 + r) % 4)])
    ∧ hexBlock bCNT ≠ hexBlock 0xff01ffffffff06ffffffff0b0cffffff := by decide

theorem witness_OneByteOfTheThirdKey :
    (∀ k (_ : k < 16), k ≠ 15 → zeroBlock[k] = (hexBlock 1)[k]) ∧ zeroBlock ≠ hexBlock 1 := by decide

theorem witness_Aes4Stores : AesReady (aesMachine cfgA).cfg (.aes4 0x1000 0x2000) := aes4_ready
theorem witness_Aes10Stores : AesReady (aesMachine cfgA).cfg (.aes10 0x1000 0x2000) := aes10_ready

/-- A6 and A7: the same bytes at other, unaligned addresses. -/
theorem witness_AesResultDepends :
    let s' := machine cfgA [(0x3001, bCNT), (0x3103, 0x101112131415161718191a1b1c1d1e1f),
      (0x3113, 0x202122232425262728292a2b2c2d2e2f), (0x3123, 0x303132333435363738393a3b3c3d3e3f)]
    (∀ k, k < 16 → Memory.byte (aesMachine cfgA).mem (0x1000 + k) = Memory.byte s'.mem (0x3001 + k))
    ∧ (∀ k, k < 48 → Memory.byte (aesMachine cfgA).mem (0x2000 + k) = Memory.byte s'.mem (0x3103 + k))
    ∧ AesReady s'.cfg (.aes4 0x3001 0x3103) ∧ AesReady s'.cfg (.aes10 0x3001 0x3103) :=
  ⟨by decide, by decide, aesReady_of (by decide) (by decide) (by decide) (by decide),
    aesReady_of (by decide) (by decide) (by decide) (by decide)⟩

/-- The reference itself is a fallback. -/
theorem witness_EveryFallback :
    (∃ p, FallbackContract aes4Block p) ∧ (∃ p, FallbackContract aes10Block p)
    ∧ ∃ t u, exec (.aes4 0x1000 0x2000) (aesMachine cfgA) = .next t
      ∧ exec (.aes10 0x1000 0x2000) (aesMachine cfgA) = .next u :=
  ⟨⟨fun m st key => Memory.writeBlock m st (aes4Block (Memory.readBlock m st) (Memory.readBlock m key)
      (Memory.readBlock m (key + 16)) (Memory.readBlock m (key + 32))), fun _ _ _ _ => storesBlock_writeBlock _ _ _⟩,
    ⟨fun m st key => Memory.writeBlock m st (aes10Block (Memory.readBlock m st) (Memory.readBlock m key)
      (Memory.readBlock m (key + 16)) (Memory.readBlock m (key + 32))), fun _ _ _ _ => storesBlock_writeBlock _ _ _⟩,
    _, _, exec_after _ _, exec_after _ _⟩

/-! #### What every operation leaves -/

/-- Two states that agree on the bytes `xor2` reads and differ elsewhere; and a fault. -/
theorem witness_EachOperationMoves :
    let i := Instr.xor2 0x100 0x110 0x140
    let s := xorMachine
    let s' := machine cfgA [(0x100, bP), (0x110, bQ), (0x140, bW)]
    (∀ r ∈ regions i, r.reads = true → ∀ k, k < r.len →
      Memory.byte s.mem (r.base + k) = Memory.byte s'.mem (r.base + k))
    ∧ s'.cfg = s.cfg ∧ Disciplined (regions i) ∧ (after i s).faults = s.faults ∧ destRegion 0x140 ∈ regions i
    ∧ (destRegion 0x140).writes = true ∧ exec i s = .next (after i s) ∧ exec i s' = .next (after i s')
    ∧ (after i (aesMachine cfgNoSimd)).faults ≠ (aesMachine cfgNoSimd).faults :=
  ⟨by decide, rfl, (regionsOk_iff _).1 (by decide), by decide, by decide, rfl, exec_after _ _, exec_after _ _, by decide⟩

theorem witness_OperationsChange : ∃ t, exec (.xor2 0x100 0x110 0x140) xorMachine = .next t := ⟨_, exec_after _ _⟩

/-- The key material of `aes4`, and a source of `xor2`. -/
theorem witness_KeyMaterial :
    (∃ t, exec (.aes4 0x1000 0x2000) (aesMachine cfgA) = .next t) ∧ Disciplined (regions (.aes4 0x1000 0x2000))
    ∧ keyRegion 0x2000 ∈ regions (.aes4 0x1000 0x2000) ∧ (keyRegion 0x2000).writes = false ∧ (keyRegion 0x2000).len ≠ 16
    ∧ (∃ t, exec (.xor2 0x100 0x110 0x140) xorMachine = .next t) ∧ Disciplined (regions (.xor2 0x100 0x110 0x140))
    ∧ sourceRegion 0x110 ∈ regions (.xor2 0x100 0x110 0x140) ∧ (sourceRegion 0x110).writes = false
    ∧ ∀ dst, destination (.xor2 0x100 0x110 0x140) = some dst → (sourceRegion 0x110).base ≠ dst :=
  ⟨⟨_, exec_after _ _⟩, (regionsOk_iff _).1 (by decide), by decide, rfl, by decide, ⟨_, exec_after _ _⟩,
    (regionsOk_iff _).1 (by decide), by decide, rfl, fun dst h => by cases h; decide⟩

/-- F14, X16 and X17. -/
theorem witness_BrokenDiscipline : ∀ i ∈ [Instr.aes4 0x1000 0x0ff0, .xor2 0x100 0x108 0x140, .xor3 0x100 0x110 0x120 0x10f],
    (∃ dst, destination i = some dst) ∧ capable cfgA i = true ∧ (∀ r ∈ regions i, Accessible cfgA r)
    ∧ ¬Disciplined (regions i) := by
  intro i hi
  simp only [List.mem_cons, List.not_mem_nil, or_false] at hi
  obtain rfl | rfl | rfl := hi
  all_goals exact ⟨⟨_, rfl⟩, by decide, accessible_of (by decide), not_disciplined_of (by decide)⟩

/-! #### Faults -/

theorem witness_MissingAes : (aesMachine cfgB).cfg.hasAes = false ∧ (aesMachine cfgNoSimd).cfg.hasAes = true
    ∧ exec (.aes4 0x1000 0x2000) (aesMachine cfgNoSimd)
      = .next (faulted (.aes4 0x1000 0x2000) .illegalInstruction (.op 0x05) (aesMachine cfgNoSimd)) :=
  ⟨rfl, rfl, exec_of_trap (trapOf_incapable (by decide))⟩

theorem witness_MissingSimd : (aesMachine cfgNoSimd).cfg.hasSimd = false
    ∧ (aesMachine cfgA).cfg.hasSimd = true ∧ (aesMachine cfgA).cfg.hasAes = true
    ∧ ∃ t, exec (.xor2 0x100 0x110 0x140) (aesMachine cfgA) = .next t := ⟨rfl, rfl, rfl, _, exec_after _ _⟩

/-- F17, where the second region fails; and a form whose regions are all accessible. -/
theorem witness_FirstInaccessible :
    capable cfgA (.xor2 0x100 0x20000 0x108) = true
    ∧ regions (.xor2 0x100 0x20000 0x108) = [sourceRegion 0x100] ++ sourceRegion 0x20000 :: [destRegion 0x108]
    ∧ (∀ q ∈ [sourceRegion 0x100], Accessible cfgA q) ∧ ¬Accessible cfgA (sourceRegion 0x20000)
    ∧ (∀ r ∈ regions (.aes4 0x1000 0x2000), Accessible cfgA r) := by
  refine ⟨by decide, rfl, fun q hq => ?_, fun h => ?_, accessible_of (by decide)⟩
  · exact (accessible_iff _ _).1 (by rw [List.mem_singleton.1 hq]; decide)
  · exact absurd ((accessible_iff _ _).2 h) (by decide)

theorem witness_NothingElse : capable cfgA (.xor2 0x101 0x111 0x109) = true
    ∧ ∀ r ∈ regions (.xor2 0x101 0x111 0x109), Accessible cfgA r := ⟨by decide, accessible_of (by decide)⟩

theorem witness_FaultIsClean :
    (after (.aes4 0x1000 0x2000) (aesMachine cfgB)).faults ≠ (aesMachine cfgB).faults
    ∧ exec (.aes4 0x1000 0x2000) (aesMachine cfgB) = .next (after (.aes4 0x1000 0x2000) (aesMachine cfgB))
    ∧ (stoppedState []).stopped 0 = true ∧ step (stoppedState [.call 0 callXor]) = .next (stoppedState [])
    ∧ (stoppedState []).faults ≠ [] ∧ Sys2Proof.core.run 0 (stoppedState []) = .next (stoppedState []) :=
  ⟨by decide, exec_after _ _, by decide, rfl, by decide, rfl⟩

theorem witness_FaultRecord : (∃ s', step (stoppedState [.call 1 callXor]) = .next s')
    ∧ ∃ t, exec (.aes4 0x1000 0x2000) (aesMachine cfgB) = .next t :=
  ⟨⟨_, step_of (by decide)⟩, _, exec_after _ _⟩

/-! #### The caller, and invocations in flight -/

/-- The last byte of the address space, and one past it, for a write and for a read. -/
theorem witness_CallerOwns :
    2 ^ 64 - 1 + [(0xab : Byte)].length ≤ 2 ^ 64 ∧ NoConflict [callerWrites (2 ^ 64 - 1) 1] (flying []).active
    ∧ 0x2000 + 48 ≤ 2 ^ 64 ∧ NoConflict [callerReads 0x2000 48] (flying []).active
    ∧ ((flying [.callerWrite (2 ^ 64 - 1) [0xab, 0xcd]]).inputs = [.callerWrite (2 ^ 64 - 1) [0xab, 0xcd]]
      ∧ 2 ^ 64 < 2 ^ 64 - 1 + [(0xab : Byte), 0xcd].length)
    ∧ ((flying [.callerRead (2 ^ 64 - 1) 2]).inputs = [.callerRead (2 ^ 64 - 1) 2] ∧ 2 ^ 64 < 2 ^ 64 - 1 + 2) :=
  ⟨by decide, noConflict_of (by decide), by decide, noConflict_of (by decide), ⟨rfl, by decide⟩, ⟨rfl, by decide⟩⟩

/-- A start that runs beside the invocation in flight, and one that faults. -/
theorem witness_Start : MayIssue (flying [.start 1 callXor]) 1 ∧ trapOf (flying []).cfg (.xor2 0x100 0x110 0x140) = none
    ∧ NoConflict (regions (.xor2 0x100 0x110 0x140)) (flying []).active
    ∧ decode (encode (.aes4 0x2000 0x2000)) = .ok (.aes4 0x2000 0x2000)
    ∧ trapOf (flying []).cfg (.aes4 0x2000 0x2000) = some { cause := .memoryFault, info := .base 0x2000 } :=
  ⟨⟨by decide, by decide⟩, by decide, noConflict_of (by decide), by decide, by decide⟩

/-- Three threads beside the one whose invocation is in flight. -/
theorem witness_AnyNumberOfThreads : [1, 2, 3].Nodup ∧ ∀ t ∈ [1, 2, 3], MayIssue (flying []) t :=
  ⟨by decide, fun t ht => ⟨by revert t; decide, by revert t; decide⟩⟩

/-- An invocation that writes the state in flight; a read and a write of its last byte and of the key material's. -/
theorem witness_Conflicting : MayIssue (flying [.call 1 callAes]) 1 ∧ trapOf (flying []).cfg (.aes4 0x1000 0x2000) = none
    ∧ ¬NoConflict (regions (.aes4 0x1000 0x2000)) (flying []).active
    ∧ ¬NoConflict [callerReads 0x100f 1] (flying []).active ∧ ¬NoConflict [callerWrites 0x202f 1] (flying []).active :=
  ⟨⟨by decide, by decide⟩, by decide, conflict_of (by decide), conflict_of (by decide), conflict_of (by decide)⟩

theorem witness_ThreadRunsOne : (flying [.call 0 callXor]).stopped 0 = false ∧ (flying [.call 0 callXor]).busy 0 = true
    ∧ (flying [.finish 1]).busy 1 = false := by decide

theorem witness_EveryStep : Inv (flying [.finish 0]) ∧ ∃ s', step (flying [.finish 0]) = .next s' :=
  ⟨flying_inv _, _, step_of (by decide)⟩

theorem witness_Finishing : Inv (flying [.finish 0])
    ∧ (⟨0, .aes4 0x1000 0x2000, loadOf (.aes4 0x1000 0x2000) (aesMachine cfgA).mem⟩ : InFlight) ∈ (flying []).active :=
  ⟨flying_inv _, List.mem_singleton.2 rfl⟩

/-- Two threads, beside a third whose `aes4` is in flight: one shares its key material, the other meets neither. -/
theorem witness_CommuteAndOverlap : MayIssue (flying []) 1 ∧ MayIssue (flying []) 2
    ∧ decode (encode (.aes10 0x3000 0x2000)) = .ok (.aes10 0x3000 0x2000)
    ∧ decode callXor = .ok (.xor2 0x100 0x110 0x140)
    ∧ trapOf cfgA (.aes10 0x3000 0x2000) = none ∧ trapOf cfgA (.xor2 0x100 0x110 0x140) = none
    ∧ Disciplined (regions (.aes10 0x3000 0x2000)) ∧ Disciplined (regions (.xor2 0x100 0x110 0x140))
    ∧ NoConflict (regions (.aes10 0x3000 0x2000)) [⟨2, .xor2 0x100 0x110 0x140, Regs.empty⟩]
    ∧ NoConflict (regions (.aes10 0x3000 0x2000)) (flying []).active
    ∧ NoConflict (regions (.xor2 0x100 0x110 0x140)) (flying []).active :=
  ⟨⟨by decide, by decide⟩, ⟨by decide, by decide⟩, by decide, decode_callXor, by decide, by decide,
    (regionsOk_iff _).1 (by decide), (regionsOk_iff _).1 (by decide), noConflict_of (by decide),
    noConflict_of (by decide), noConflict_of (by decide)⟩

theorem witness_ConfigurationNeverChanges : (∃ s', step (flying [.reset]) = .next s')
    ∧ ∃ t, exec (.aes4 0x1000 0x2000) (aesMachine cfgB) = .next t := ⟨⟨_, rfl⟩, _, exec_after _ _⟩

theorem witness_CoreIsIdle : (flying [.reset]).inputs = [.reset] ∧ MayIssue (resetCore (flying [])) 0
    ∧ wellFormed (.aes4 0x1000 0x2000) = true := ⟨rfl, ⟨rfl, rfl⟩, by decide⟩

theorem witness_ResetAbandons : Inv (flying [.reset]) ∧ (flying [.reset]).inputs = [.reset] := ⟨flying_inv _, rfl⟩

end Sys2Proof.Machine
end

section
/-! PROOFS. The region discipline of the XOR operations as a condition on addresses (20_memory.md R49, R51), and the bytes
each operation moves (R47). -/

namespace Sys2Proof.Machine

/-! ### The discipline on Blocks is a condition on their addresses -/

theorem apart_iff_addressesApart {r q : Region} (hr : r.len = 16) (hq : q.len = 16) :
    Apart r q ↔ AddressesApart r.base q.base := by
  simp [Apart, AddressesApart, hr, hq]

theorem disciplined_iff_addressesApart {rs : List Region} (h : ∀ r ∈ rs, r.len = 16) :
    Disciplined rs ↔ (rs.map Region.base).Pairwise AddressesApart := by
  rw [Disciplined, List.pairwise_map]
  exact List.Pairwise.iff_of_mem fun hr hq => apart_iff_addressesApart (h _ hr) (h _ hq)

theorem disciplined_xor2_iff (a b dst : Nat) :
    Disciplined (regions (.xor2 a b dst)) ↔ [a, b, dst].Pairwise AddressesApart :=
  disciplined_iff_addressesApart (by simp [regions, sourceRegion, destRegion])

theorem disciplined_xor3_iff (a b c dst : Nat) :
    Disciplined (regions (.xor3 a b c dst)) ↔ [a, b, c, dst].Pairwise AddressesApart :=
  disciplined_iff_addressesApart (by simp [regions, sourceRegion, destRegion])

theorem disciplined_xor4_iff (a b c d dst : Nat) :
    Disciplined (regions (.xor4 a b c d dst)) ↔ [a, b, c, d, dst].Pairwise AddressesApart :=
  disciplined_iff_addressesApart (by simp [regions, sourceRegion, destRegion])

/-! ### What an XOR operation stores under the caller's contract -/

/-- The caller's contract rules out a fault of an operation that needs the 128-bit extension alone. -/
theorem XorReady.trapOf_eq_none {c : Config} {i : Instr} (h : XorReady c i) (hc : capable c i = c.hasSimd) :
    trapOf c i = none := by
  obtain ⟨hsimd, hacc, -⟩ := h
  exact (trapOf_eq_none_iff c i).2 ⟨hc.trans hsimd, hacc⟩

/-- Under the caller's contract such an operation completes and stores its result, byte by byte. -/
theorem XorReady.exec_storesAt {i : Instr} {s : State} {dst : Nat} {value : Nat → Byte} (h : XorReady s.cfg i)
    (hc : capable s.cfg i = s.cfg.hasSimd) (hd : destination i = some dst)
    (hv : ∀ k (hk : k < 16), (resultOf s.cfg i s.mem)[k] = value k) :
    ∃ t, exec i s = .next t ∧ StoresAt dst value s.mem t.mem := by
  have ht : trapOf s.cfg i = none := h.trapOf_eq_none hc
  obtain ⟨-, -, hdis⟩ := h
  refine ⟨_, exec_done ht hd hdis, ?_⟩
  rw [State.retire_mem, State.withMem_mem]
  exact storesAt_writeBlock _ _ _ _ hv

theorem xor2_storesAt {a b dst : Nat} {s : State} (h : XorReady s.cfg (.xor2 a b dst)) :
    ∃ t, exec (.xor2 a b dst) s = .next t
      ∧ StoresAt dst (fun k => Memory.byte s.mem (a + k) ^^^ Memory.byte s.mem (b + k)) s.mem t.mem :=
  h.exec_storesAt rfl rfl fun k hk => by simp

theorem xor3_storesAt {a b c dst : Nat} {s : State} (h : XorReady s.cfg (.xor3 a b c dst)) :
    ∃ t, exec (.xor3 a b c dst) s = .next t
      ∧ StoresAt dst
          (fun k => Memory.byte s.mem (a + k) ^^^ Memory.byte s.mem (b + k) ^^^ Memory.byte s.mem (c + k)) s.mem t.mem :=
  h.exec_storesAt rfl rfl fun k hk => by simp

theorem xor4_storesAt {a b c d dst : Nat} {s : State} (h : XorReady s.cfg (.xor4 a b c d dst)) :
    ∃ t, exec (.xor4 a b c d dst) s = .next t
      ∧ StoresAt dst
          (fun k => (Memory.byte s.mem (a + k) ^^^ Memory.byte s.mem (b + k))
            ^^^ (Memory.byte s.mem (c + k) ^^^ Memory.byte s.mem (d + k))) s.mem t.mem :=
  h.exec_storesAt rfl rfl fun k hk => by simp

/-! ### The bytes an invocation moves -/

/-- A region an operation writes is its destination Block (R47). -/
theorem written_region {i : Instr} {r : Region} (hr : r ∈ regions i) (hw : r.writes = true) :
    r.len = 16 ∧ destination i = some r.base := by
  have hshape : Laws.Shape.Statement i := by
    cases i with
    | queryCPUID leaf subleaf => exact Laws.Shape.queryCPUID leaf subleaf
    | xor2 a b dst => exact Laws.Shape.xor2 a b dst
    | xor3 a b c dst => exact Laws.Shape.xor3 a b c dst
    | xor4 a b c d dst => exact Laws.Shape.xor4 a b c d dst
    | aes4 st key => exact Laws.Shape.aes4 st key
    | aes10 st key => exact Laws.Shape.aes10 st key
  obtain ⟨-, -, hwritten⟩ := hshape
  exact hwritten r hr hw

/-- The computed Block depends only on the bytes of the regions the operation reads. -/
theorem resultOf_congr (c : Config) (i : Instr) (m m' : Memory)
    (h : ∀ r ∈ regions i, r.reads = true → ∀ k, k < r.len →
      Memory.byte m (r.base + k) = Memory.byte m' (r.base + k)) : resultOf c i m = resultOf c i m' := by
  rw [resultOf, resultOf, loadOf_congr i m m' h]

/-- The fault record tells whether the invocation's checks passed: a fault adds an entry, the last stages add none. -/
theorem exec_faults_eq_iff {i : Instr} {s t : State} (h : exec i s = .next t) :
    t.faults = s.faults ↔ trapOf s.cfg i = none := by
  obtain ⟨p, hp, rfl⟩ | ⟨hp, rfl⟩ := exec_cases h <;> simp [hp]

/-- Under the discipline, the bytes an invocation that does not fault leaves at its destination. -/
theorem exec_byte_destination {i : Instr} {s t : State} {dst : Nat} (h : exec i s = .next t)
    (ht : trapOf s.cfg i = none) (hd : destination i = some dst) (hr : Disciplined (regions i)) {k : Nat} (hk : k < 16) :
    Memory.byte t.mem (dst + k) = (resultOf s.cfg i s.mem)[k] := by
  rw [exec_done ht hd hr, Host.Outcome.next.injEq] at h
  rw [← h, State.retire_mem, State.withMem_mem, Memory.byte_writeBlock_inside _ _ _ _ hk]

/-- A byte outside the destination Block keeps its value, whether the invocation completes or faults. -/
theorem exec_byte_outside {i : Instr} {s t : State} (h : exec i s = .next t) {a : Nat}
    (ha : ∀ dst, destination i = some dst → a < dst ∨ dst + 16 ≤ a) : Memory.byte t.mem a = Memory.byte s.mem a := by
  obtain ⟨p, -, rfl⟩ | ⟨-, rfl⟩ := exec_cases h
  · rfl
  · exact conclude_byte _ _ _ _ _ ha

/-- An invocation that faults leaves memory as it was (R159). -/
theorem exec_fault_mem {i : Instr} {s t : State} (h : exec i s = .next t) (hf : t.faults ≠ s.faults) :
    t.mem = s.mem := by
  obtain ⟨p, -, rfl⟩ | ⟨hp, -⟩ := exec_cases h
  · rfl
  · exact absurd ((exec_faults_eq_iff h).2 hp) hf

/-- Two invocations that read the same bytes under one configuration store the same bytes. -/
theorem exec_stores_what_it_reads {i : Instr} {s s' t t' : State} (h : exec i s = .next t) (h' : exec i s' = .next t')
    (hcfg : s'.cfg = s.cfg) (hdis : Disciplined (regions i))
    (hread : ∀ r ∈ regions i, r.reads = true → ∀ k, k < r.len →
      Memory.byte s.mem (r.base + k) = Memory.byte s'.mem (r.base + k))
    (hf : t.faults = s.faults) {r : Region} (hr : r ∈ regions i) (hw : r.writes = true) :
    t'.faults = s'.faults ∧ ∀ k, k < r.len → Memory.byte t.mem (r.base + k) = Memory.byte t'.mem (r.base + k) := by
  have ht : trapOf s.cfg i = none := (exec_faults_eq_iff h).1 hf
  have ht' : trapOf s'.cfg i = none := hcfg ▸ ht
  obtain ⟨hlen, hd⟩ := written_region hr hw
  refine ⟨(exec_faults_eq_iff h').2 ht', fun k hk => ?_⟩
  rw [hlen] at hk
  calc Memory.byte t.mem (r.base + k)
      = (resultOf s.cfg i s.mem)[k] := exec_byte_destination h ht hd hdis hk
    _ = (resultOf s'.cfg i s'.mem)[k] := by rw [hcfg, resultOf_congr s.cfg i s.mem s'.mem hread]
    _ = Memory.byte t'.mem (r.base + k) := (exec_byte_destination h' ht' hd hdis hk).symm

/-! ### The statements -/

/-- Settles O19: the discipline on Blocks is a condition on addresses, every form that keeps it stores its operation's
value, and the named forms are those in which that value cancels. -/
theorem identicalRegionsAreWellDefined : Obligations.IdenticalRegionsAreWellDefined := by
  refine ⟨fun i => regionsOk_iff _, disciplined_xor2_iff, disciplined_xor3_iff, disciplined_xor4_iff,
    fun a b dst s hsimd hacc hp => xor2_storesAt ⟨hsimd, hacc, (disciplined_xor2_iff a b dst).2 hp⟩,
    fun a b c dst s hsimd hacc hp => xor3_storesAt ⟨hsimd, hacc, (disciplined_xor3_iff a b c dst).2 hp⟩,
    fun a b c d dst s hsimd hacc hp => xor4_storesAt ⟨hsimd, hacc, (disciplined_xor4_iff a b c d dst).2 hp⟩, ?_, ?_, ?_⟩
  · intro a s h
    simpa only [BitVec.xor_self, BitVec.ofNat_eq_ofNat] using xor2_storesAt h
  · intro a b s h
    simpa only [BitVec.xor_self, BitVec.ofNat_eq_ofNat] using xor4_storesAt h
  · intro p dst s h
    simpa only [BitVec.xor_self, BitVec.zero_xor] using xor3_storesAt h

/-- Settles O35: the table of regions by cases on the operation, then what an invocation stores, what it leaves alone, and
that a fault writes nothing. -/
theorem eachOperationMovesExactlyItsBytes : Obligations.EachOperationMovesExactlyItsBytes := by
  refine ⟨fun leaf subleaf a b c d dst st key => ⟨rfl, rfl, rfl, rfl, ?_⟩, ?_, ?_⟩
  · intro i hi
    obtain rfl | rfl : i = .aes4 st key ∨ i = .aes10 st key := by simpa using hi
    · rfl
    · rfl
  · intro i s s' t t' h h' hcfg hdis hread hf r hr hw
    exact exec_stores_what_it_reads h h' hcfg hdis hread hf hr hw
  · intro i s t h
    refine ⟨fun a ha => exec_byte_outside h fun dst hd => ?_, exec_fault_mem h⟩
    obtain ⟨r, hr, rfl, hlen, hw⟩ := destination_region hd
    simpa [hlen] using ha r hr hw

end Sys2Proof.Machine
end

section
/-! PROOFS. The query has no side effect (40_cpuid.md R93): no operation reads the list of completed invocations, the one
field the query changes, and the query has no regions. -/

namespace Sys2Proof.Machine

/-! ### What the query does -/

@[simp] theorem trapOf_queryCPUID (c : Config) (leaf subleaf : Word) : trapOf c (.queryCPUID leaf subleaf) = none := rfl

@[simp] theorem regions_queryCPUID (leaf subleaf : Word) : regions (.queryCPUID leaf subleaf) = [] := rfl

/-- An operation with no destination whose checks pass returns its words and does nothing else. -/
theorem exec_returned {i : Instr} {s : State} (ht : trapOf s.cfg i = none) (hd : destination i = none) :
    exec i s = .next (s.retire i (.returned (wordsOf s.cfg i s.mem))) := by
  rw [exec_of_no_trap ht, conclude_returning hd]
  rfl

theorem exec_queryCPUID (leaf subleaf : Word) (s : State) :
    exec (.queryCPUID leaf subleaf) s =
      .next (s.retire (.queryCPUID leaf subleaf) (.returned (cpuidTable s.cfg leaf subleaf))) := by
  rw [exec_returned (trapOf_queryCPUID _ _ _) rfl, wordsOf_queryCPUID]

/-! ### No operation reads the list of completed invocations -/

/-- The last stages put one entry before the completed invocations, and neither it nor anything else they do depends on
those already listed. -/
theorem conclude_withEnded (i : Instr) (f : Regs → Regs) (r : Regs) (s : State) :
    ∃ e, ∀ l, conclude i f r { s with ended := l } = { conclude i f r s with ended := e :: l } := by
  cases hd : destination i with
  | none => exact ⟨⟨s.thread, i, .returned _⟩, fun l => by rw [conclude_returning hd, conclude_returning hd]; rfl⟩
  | some dst =>
    by_cases hdis : Disciplined (regions i)
    · refine ⟨⟨s.thread, i, .done⟩, fun l => ?_⟩
      simp only [conclude_storing hd hdis, State.retire, State.withMem]
    · refine ⟨⟨s.thread, i, .undefined⟩, fun l => ?_⟩
      simp only [conclude_drawing hd hdis, State.retire, State.drawn, State.withMem]

/-- With other invocations listed as completed, an invocation does what it does without them: it lists the same new ones
(none if it faults) and leaves the same of everything else. -/
theorem exec_withEnded {i : Instr} {s u : State} (h : exec i s = .next u) :
    ∃ new, u.ended = new ++ s.ended ∧
      ∀ l, exec i { s with ended := l } = .next { u with ended := new ++ l } := by
  obtain ⟨p, hp, rfl⟩ | ⟨hp, rfl⟩ := exec_cases h
  · exact ⟨[], rfl, fun l => exec_of_trap (s := { s with ended := l }) hp⟩
  · obtain ⟨e, he⟩ := conclude_withEnded i (computeOf s.cfg i) (loadOf i s.mem) s
    refine ⟨[e], congrArg State.ended (he s.ended), fun l => ?_⟩
    rw [exec_of_no_trap (s := { s with ended := l }) hp]
    exact congrArg Host.Outcome.next (he l)

/-! ### The statement -/

/-- Settles O12: the query changes only the list of completed invocations, which no operation reads, and a list of no
regions meets nothing. -/
theorem queryHasNoSideEffect : Obligations.QueryHasNoSideEffect := by
  refine ⟨fun leaf subleaf s t h => ?_, fun leaf subleaf fs => ?_, fun leaf subleaf rs t r => ?_⟩
  · have ht : t = { s with ended := t.ended } := by
      rw [exec_queryCPUID] at h
      cases h
      rfl
    refine ⟨ht, fun i u hu => ?_⟩
    obtain ⟨new, hnew, hexec⟩ := exec_withEnded hu
    refine ⟨new, hnew, ?_⟩
    calc exec i t = exec i { s with ended := t.ended } := congrArg (exec i) ht
      _ = .next { u with ended := new ++ t.ended } := hexec t.ended
  · simp [NoConflict]
  · simp [NoConflict]

end Sys2Proof.Machine
end

section
/-! PROOFS. The encoding (30_encoding.md): a descriptor decodes to an invocation exactly when the invocation is
well-formed and the bytes that carry it are those of its encoding. What is ignored, and the round trip, follow. -/

namespace Sys2Proof.Machine

/-! ### Numbers and their bytes -/

theorem byteAt_succ (v j : Nat) : byteAt v (j + 1) = byteAt (v / 256) j := by
  rw [byteAt, byteAt, Nat.pow_succ', Nat.div_div_eq_div_mul]

/-- The bytes of a number are those it was put together from. -/
theorem byteAt_littleEndian (bs : List Byte) (j : Nat) (h : j < bs.length) : byteAt (littleEndian bs) j = bs[j] := by
  induction bs generalizing j with
  | nil => exact absurd h (Nat.not_lt_zero j)
  | cons b bs ih =>
    have hb := b.isLt
    cases j with
    | zero =>
      apply BitVec.eq_of_toNat_eq
      rw [byteAt_toNat, littleEndian, List.getElem_cons_zero]
      omega
    | succ j =>
      have hdiv : littleEndian (b :: bs) / 256 = littleEndian bs := by rw [littleEndian]; omega
      rw [byteAt_succ, hdiv, ih j (Nat.lt_of_succ_lt_succ h), List.getElem_cons_succ]

/-- The low bytes of a number are the bytes of its low part. -/
theorem byteAt_mod (v n j : Nat) (h : j < n) : byteAt (v % 256 ^ n) j = byteAt v j := by
  rw [← littleEndian_bytes, byteAt_littleEndian _ j (by simpa using h), List.getElem_ofFn]

/-- Two numbers with the same low bytes have the same low part. -/
theorem mod_eq_mod_of_bytes (v v' n : Nat) (h : ∀ j, j < n → byteAt v j = byteAt v' j) :
    v % 256 ^ n = v' % 256 ^ n := by
  rw [← littleEndian_bytes, ← littleEndian_bytes]
  congr 1
  exact congrArg List.ofFn (funext fun j => h j.val j.isLt)

/-- The bytes of a field are bytes of the descriptor (R73). -/
theorem byteAt_slot (d : Descriptor) (k : Fin 5) (j : Nat) (h : j < 8) :
    byteAt (slot d k) j = d[8 + 8 * k.val + j]'(by omega) := by
  rw [slot, byteAt_littleEndian _ j (by simpa using h), List.getElem_ofFn]

theorem slot_eq_fieldValue (d : Descriptor) (k : Fin 5) : slot d k = fieldValue d k := littleEndian_eq_sum 8 _

/-! ### The fields of an operation -/

/-- How many bytes of each of its fields an operation uses: the low half for words, all eight for addresses (R76). -/
def fieldBytes : Instr → Nat
  | .queryCPUID _ _ => 4
  | _ => 8

theorem fieldBytes_le (i : Instr) : fieldBytes i ≤ 8 := by cases i <;> simp [fieldBytes]

/-- The bytes that carry information, uniformly: the opcode and the used part of each operand's field. -/
theorem usedByte_iff (i : Instr) (k : Nat) :
    usedByte i k = true ↔
      k = 0 ∨ 8 ≤ k ∧ (k - 8) / 8 < (operands i).length ∧ (k - 8) % 8 < fieldBytes i := by
  cases i <;> simp [usedByte, operands, fieldBytes] <;> omega

/-- An invocation is well-formed when each operand fits the used part of its field. -/
theorem wellFormed_iff (i : Instr) :
    wellFormed i = true ↔
      ∀ k : Fin 5, k.val < (operands i).length → (operands i).getD k.val 0 < 256 ^ fieldBytes i := by
  have w32 (v : Word) : v.toNat < 256 ^ 4 := v.isLt
  have pow : (256 : Nat) ^ 8 = 2 ^ 64 := by norm_num
  cases i <;> simp [wellFormed, operands, fieldBytes, Fin.forall_fin_succ, pow, w32, and_assoc, -Nat.reducePow]

/-- The operand is the used part of its field exactly when it fits there and its bytes stand there. -/
theorem eq_slot_mod_iff (d : Descriptor) (k : Fin 5) (v n : Nat) (hn : n ≤ 8) :
    v = slot d k % 256 ^ n ↔ v < 256 ^ n ∧ ∀ j (_ : j < n), d[8 + 8 * k.val + j] = byteAt v j := by
  constructor
  · rintro rfl
    refine ⟨Nat.mod_lt _ (by positivity), fun j hj => ?_⟩
    rw [byteAt_mod _ _ _ hj, byteAt_slot d k j (by omega)]
  · rintro ⟨hv, hd⟩
    rw [← Nat.mod_eq_of_lt hv]
    exact mod_eq_mod_of_bytes _ _ n fun j hj => by rw [byteAt_slot d k j (by omega), hd j hj]

/-! ### The decoder, opcode by opcode (R82) -/

theorem decode_queryCPUID {d : Descriptor} (h : d[0] = 0x01) :
    decode d = .ok (.queryCPUID (wordSlot d 0) (wordSlot d 1)) := by simp [decode, h]

theorem decode_xor2 {d : Descriptor} (h : d[0] = 0x02) :
    decode d = .ok (.xor2 (slot d 0) (slot d 1) (slot d 2)) := by simp [decode, h]

theorem decode_xor3 {d : Descriptor} (h : d[0] = 0x03) :
    decode d = .ok (.xor3 (slot d 0) (slot d 1) (slot d 2) (slot d 3)) := by simp [decode, h]

theorem decode_xor4 {d : Descriptor} (h : d[0] = 0x04) :
    decode d = .ok (.xor4 (slot d 0) (slot d 1) (slot d 2) (slot d 3) (slot d 4)) := by simp [decode, h]

theorem decode_aes4 {d : Descriptor} (h : d[0] = 0x05) :
    decode d = .ok (.aes4 (slot d 0) (slot d 1)) := by simp [decode, h]

theorem decode_aes10 {d : Descriptor} (h : d[0] = 0x06) :
    decode d = .ok (.aes10 (slot d 0) (slot d 1)) := by simp [decode, h]

theorem decode_reserved {d : Descriptor} (h : d[0] = 0x00 ∨ 0x07 ≤ (d[0]).toNat) :
    decode d = .error (.reservedOpcode d[0]) := by
  have h0 : (d[0]).toNat = 0 ∨ 7 ≤ (d[0]).toNat := h.imp_left fun e => by rw [e]; rfl
  unfold decode
  split
  case h_7 => rfl
  all_goals omega

/-- A word operand is the used part of its field. -/
theorem wordSlot_toNat (d : Descriptor) (k : Fin 5) : (wordSlot d k).toNat = slot d k % 256 ^ 4 := by
  simp [wordSlot]

theorem slot_mod (d : Descriptor) (k : Fin 5) : slot d k % 256 ^ 8 = slot d k :=
  Nat.mod_eq_of_lt (Nat.lt_of_lt_of_eq (slot_lt d k) (by norm_num))

/-- Every opcode byte is reserved or one of the six (R74). -/
theorem opcode_cases (b : Byte) :
    (b = 0x01 ∨ b = 0x02 ∨ b = 0x03 ∨ b = 0x04 ∨ b = 0x05 ∨ b = 0x06) ∨ (b = 0x00 ∨ 0x07 ≤ b.toNat) := by
  bv_omega

/-- What decodes to an invocation, in terms of the fields: its opcode, and each operand in the used part of its
field. -/
theorem decode_eq_ok_iff (d : Descriptor) (i : Instr) :
    decode d = .ok i ↔ d[0] = opcode i ∧
      ∀ k : Fin 5, k.val < (operands i).length → (operands i).getD k.val 0 = slot d k % 256 ^ fieldBytes i := by
  constructor
  · intro h
    obtain six | e := opcode_cases d[0]
    case inr => rw [decode_reserved e] at h; cases h
    obtain e | e | e | e | e | e := six
    · rw [decode_queryCPUID e] at h; cases h
      simp [e, opcode, operands, fieldBytes, Fin.forall_fin_succ, wordSlot_toNat, -Nat.reducePow]
    · rw [decode_xor2 e] at h; cases h
      simp [e, opcode, operands, fieldBytes, Fin.forall_fin_succ, slot_mod, -Nat.reducePow]
    · rw [decode_xor3 e] at h; cases h
      simp [e, opcode, operands, fieldBytes, Fin.forall_fin_succ, slot_mod, -Nat.reducePow]
    · rw [decode_xor4 e] at h; cases h
      simp [e, opcode, operands, fieldBytes, Fin.forall_fin_succ, slot_mod, -Nat.reducePow]
    · rw [decode_aes4 e] at h; cases h
      simp [e, opcode, operands, fieldBytes, Fin.forall_fin_succ, slot_mod, -Nat.reducePow]
    · rw [decode_aes10 e] at h; cases h
      simp [e, opcode, operands, fieldBytes, Fin.forall_fin_succ, slot_mod, -Nat.reducePow]
  · rintro ⟨h0, hf⟩
    cases i with
    | queryCPUID leaf subleaf =>
      obtain ⟨h1, h2⟩ : leaf = wordSlot d 0 ∧ subleaf = wordSlot d 1 := by
        simpa [operands, fieldBytes, Fin.forall_fin_succ, ← wordSlot_toNat, BitVec.toNat_inj, -Nat.reducePow] using hf
      rw [decode_queryCPUID h0, h1, h2]
    | xor2 a b dst =>
      obtain ⟨h1, h2, h3⟩ : a = slot d 0 ∧ b = slot d 1 ∧ dst = slot d 2 := by
        simpa [operands, fieldBytes, Fin.forall_fin_succ, slot_mod, -Nat.reducePow] using hf
      rw [decode_xor2 h0, h1, h2, h3]
    | xor3 a b c dst =>
      obtain ⟨h1, h2, h3, h4⟩ : a = slot d 0 ∧ b = slot d 1 ∧ c = slot d 2 ∧ dst = slot d 3 := by
        simpa [operands, fieldBytes, Fin.forall_fin_succ, slot_mod, -Nat.reducePow] using hf
      rw [decode_xor3 h0, h1, h2, h3, h4]
    | xor4 a b c e dst =>
      obtain ⟨h1, h2, h3, h4, h5⟩ : a = slot d 0 ∧ b = slot d 1 ∧ c = slot d 2 ∧ e = slot d 3 ∧ dst = slot d 4 := by
        simpa [operands, fieldBytes, Fin.forall_fin_succ, slot_mod, -Nat.reducePow] using hf
      rw [decode_xor4 h0, h1, h2, h3, h4, h5]
    | aes4 st key =>
      obtain ⟨h1, h2⟩ : st = slot d 0 ∧ key = slot d 1 := by
        simpa [operands, fieldBytes, Fin.forall_fin_succ, slot_mod, -Nat.reducePow] using hf
      rw [decode_aes4 h0, h1, h2]
    | aes10 st key =>
      obtain ⟨h1, h2⟩ : st = slot d 0 ∧ key = slot d 1 := by
        simpa [operands, fieldBytes, Fin.forall_fin_succ, slot_mod, -Nat.reducePow] using hf
      rw [decode_aes10 h0, h1, h2]

/-! ### Decoding in terms of the encoder -/

/-- A property of the bytes that carry an invocation is one of its opcode byte and of its operands' bytes. -/
theorem forall_usedByte_iff (i : Instr) (P : (k : Nat) → k < 48 → Prop) :
    (∀ k (hk : k < 48), usedByte i k = true → P k hk) ↔
      P 0 (by omega) ∧
        ∀ k : Fin 5, k.val < (operands i).length → ∀ j, j < fieldBytes i → ∀ h, P (8 + 8 * k.val + j) h := by
  have hw := fieldBytes_le i
  constructor
  · refine fun h => ⟨h 0 _ ((usedByte_iff i 0).2 (.inl rfl)),
      fun k hk j hj hlt => h _ _ ((usedByte_iff i _).2 (.inr ?_))⟩
    refine ⟨by omega, ?_, ?_⟩
    · rwa [show (8 + 8 * k.val + j - 8) / 8 = k.val by omega]
    · rwa [show (8 + 8 * k.val + j - 8) % 8 = j by omega]
  · rintro ⟨h0, hf⟩ k hk hu
    obtain rfl | ⟨h8, hk', hj⟩ := (usedByte_iff i k).1 hu
    · exact h0
    · have e : 8 + 8 * ((k - 8) / 8) + (k - 8) % 8 = k := by omega
      have := hf ⟨(k - 8) / 8, by omega⟩ hk' _ hj (by rw [e]; exact hk)
      simpa only [e] using this

/-- The bytes that carry an invocation determine it, and only its encoding's will do. -/
theorem decode_eq_ok_iff_usedByte (d : Descriptor) (i : Instr) :
    decode d = .ok i ↔ wellFormed i = true ∧ ∀ k (_ : k < 48), usedByte i k = true → d[k] = (encode i)[k] := by
  have hw := fieldBytes_le i
  have field (k : Fin 5) (j : Nat) (hj : j < fieldBytes i) (h : 8 + 8 * k.val + j < 48) :
      (encode i)[8 + 8 * k.val + j] = byteAt ((operands i).getD k.val 0) j := encode_getElem_field i k ⟨j, by omega⟩
  rw [decode_eq_ok_iff, wellFormed_iff, forall_usedByte_iff i fun k hk => d[k] = (encode i)[k], encode_opcode]
  constructor
  · rintro ⟨h0, hf⟩
    refine ⟨fun k hk => ((eq_slot_mod_iff d k _ _ hw).1 (hf k hk)).1, h0, fun k hk j hj h => ?_⟩
    rw [field k j hj h]
    exact ((eq_slot_mod_iff d k _ _ hw).1 (hf k hk)).2 j hj
  · rintro ⟨hwf, h0, hf⟩
    refine ⟨h0, fun k hk => (eq_slot_mod_iff d k _ _ hw).2 ⟨hwf k hk, fun j hj => ?_⟩⟩
    rw [← field k j hj (by omega)]
    exact hf k hk j hj (by omega)

theorem decode_encode {i : Instr} (h : wellFormed i = true) : decode (encode i) = .ok i :=
  (decode_eq_ok_iff_usedByte _ _).2 ⟨h, fun _ _ _ => rfl⟩

theorem wellFormed_of_decode {d : Descriptor} {i : Instr} (h : decode d = .ok i) : wellFormed i = true :=
  ((decode_eq_ok_iff_usedByte d i).1 h).1

theorem byteAt_of_lt {v j : Nat} (h : v < 256 ^ j) : byteAt v j = 0 := by
  rw [byteAt, Nat.div_eq_of_lt h]
  rfl

/-- An operand has nothing above the used part of its field: a word has four bytes (R76). -/
theorem byteAt_operand_above (i : Instr) (k j : Nat) (hj : fieldBytes i ≤ j) (h8 : j < 8) :
    byteAt ((operands i).getD k 0) j = 0 := by
  cases i with
  | queryCPUID leaf subleaf =>
    refine byteAt_of_lt (Nat.lt_of_lt_of_le ?_ (Nat.pow_le_pow_right (by omega) hj))
    match k with
    | 0 => exact leaf.isLt
    | 1 => exact subleaf.isLt
    | _ + 2 => exact Nat.pos_of_ne_zero (by simp)
  | _ => exact absurd h8 (Nat.not_lt.2 hj)

/-- The encoder writes zeros where the decoder reads nothing (R77). -/
theorem encode_unused (i : Instr) (k : Nat) (hk : k < 48) (hu : usedByte i k = false) : (encode i)[k] = 0 := by
  have hn := mt (usedByte_iff i k).2 (by simp [hu])
  simp only [encode, Vector.getElem_ofFn]
  rw [if_neg (by omega)]
  by_cases h8 : k < 8
  · rw [if_pos h8]
  rw [if_neg h8]
  by_cases hlen : (k - 8) / 8 < (operands i).length
  · exact byteAt_operand_above i _ _ (by omega) (by omega)
  · rw [List.getD_eq_default _ _ (Nat.le_of_not_lt hlen)]
    exact byteAt_of_lt (by positivity)

/-! ### The statements -/

/-- Settles O1: an encoding carries the bytes of its own invocation. -/
theorem decodeOfEncodeGivesBackTheInvocation : Obligations.DecodeOfEncodeGivesBackTheInvocation :=
  fun _ h => decode_encode h

/-- Settles O2: the bytes that carry an invocation decide the decoding, and the encoder writes zeros in the others. -/
theorem ignoredBytesDoNotReachTheInvocation : Obligations.IgnoredBytesDoNotReachTheInvocation := by
  refine ⟨fun d d' i h hd => ?_, encode_unused, fun d i h => ?_, fun i h => decode_encode h⟩
  · obtain ⟨hwf, hused⟩ := (decode_eq_ok_iff_usedByte d i).1 h
    exact (decode_eq_ok_iff_usedByte d' i).2 ⟨hwf, fun k hk hu => (hd k hk hu).trans (hused k hk hu)⟩
  · obtain ⟨-, hused⟩ := (decode_eq_ok_iff_usedByte d i).1 h
    constructor
    · rintro rfl k hk hu
      exact encode_unused i k hk hu
    · intro hz
      ext1 k hk
      cases hu : usedByte i k with
      | true => exact (hused k hk hu).symm
      | false => rw [encode_unused i k hk hu, hz k hk hu]

/-- Settles O3: the decoder by its opcode byte, each field being the sum of R73. -/
theorem decodingFollowsItsTable : Obligations.DecodingFollowsItsTable := by
  intro d
  have word (k : Fin 5) : BitVec.ofNat 32 (fieldValue d k % 2 ^ 32) = wordSlot d k := by
    rw [wordSlot, slot_eq_fieldValue]
    exact BitVec.eq_of_toNat_eq (by simp)
  rw [word, word]
  simp only [← slot_eq_fieldValue]
  exact ⟨decode_queryCPUID, decode_xor2, decode_xor3, decode_xor4, decode_aes4, decode_aes10, decode_reserved⟩

/-- Settles O4: an operand read from its field fits there. -/
theorem decodedInvocationsAreWellFormed : Obligations.DecodedInvocationsAreWellFormed :=
  fun _ _ h => wellFormed_of_decode h

/-- Settles O5: the decoder evaluates on each of the six descriptors. -/
theorem writtenOutDescriptorsDecode : Obligations.WrittenOutDescriptorsDecode := by
  unfold Obligations.WrittenOutDescriptorsDecode
  decide

end Sys2Proof.Machine
end

section
/-! PROOFS. Everything one step can do, as one inductive relation, and the steps of the single inputs. The invariant and
the frame of a step are case analyses of this relation. -/

namespace Sys2Proof.Machine

/-! ### The step, input by input -/

theorem step_of_inputs {s : State} {e : Input} {rest : List Input} (h : s.inputs = e :: rest) :
    step s = accept e (s.withInputs rest) := by
  unfold step
  rw [h]

/-- A thread that may issue runs the invocation its descriptor stands for, if that faults or meets nothing in flight. -/
theorem issue_run {s : State} {t : ThreadId} {d : Descriptor} {i : Instr} (hm : MayIssue s t) (hd : decode d = .ok i)
    (hc : trapOf s.cfg i ≠ none ∨ NoConflict (regions i) s.active)
    (run : Instr → State → Host.Outcome State Fault Refusal) : issue t d run s = run i (s.onThread t) := by
  obtain ⟨hs, hb⟩ := hm
  have hcond : (conflictsWithActive (regions i) s.active && (trapOf s.cfg i).isNone) = false := by
    rcases hc with ht | hn
    · obtain ⟨p, hp⟩ := Option.ne_none_iff_exists'.1 ht
      simp [hp]
    · simp [(noConflict_iff _ _).1 hn]
  simp [issue, hs, hb, hd, hcond]

/-- An invocation that would run but meets one in flight is refused (R60). -/
theorem issue_conflict {s : State} {t : ThreadId} {d : Descriptor} {i : Instr} (hm : MayIssue s t)
    (hd : decode d = .ok i) (ht : trapOf s.cfg i = none) (hc : ¬NoConflict (regions i) s.active)
    (run : Instr → State → Host.Outcome State Fault Refusal) : issue t d run s = .refused .conflict := by
  obtain ⟨hs, hb⟩ := hm
  have hconf : conflictsWithActive (regions i) s.active = true := by
    rwa [noConflict_iff, Bool.not_eq_false] at hc
  simp [issue, hs, hb, hd, ht, hconf]

/-- A thread that may issue takes the fault of a reserved opcode (R153). -/
theorem issue_reserved {s : State} {t : ThreadId} {d : Descriptor} {op : Byte} (hm : MayIssue s t)
    (hd : decode d = .error (.reservedOpcode op)) (run : Instr → State → Host.Outcome State Fault Refusal) :
    issue t d run s = .next (takeFault (.descriptor d) .illegalCommand (.op op) (s.onThread t)) := by
  obtain ⟨hs, hb⟩ := hm
  simp [issue, hs, hb, hd]

/-- A stopped thread's issue has no effect (R159(e)). -/
theorem issue_stopped {s : State} {t : ThreadId} (hs : s.stopped t = true) (d : Descriptor)
    (run : Instr → State → Host.Outcome State Fault Refusal) : issue t d run s = .next s := by
  simp [issue, hs]

theorem issue_busy {s : State} {t : ThreadId} (hs : s.stopped t = false) (hb : s.busy t = true) (d : Descriptor)
    (run : Instr → State → Host.Outcome State Fault Refusal) : issue t d run s = .refused .threadBusy := by
  simp [issue, hs, hb]

/-- A caller access inside the address space and clear of what is in flight has its effect. -/
theorem callerAccess_next {r : Region} {s : State} (hr : r.base + r.len ≤ 2 ^ 64) (hc : NoConflict [r] s.active)
    (s' : State) : callerAccess r s s' = .next s' := by
  rw [callerAccess, Config.fixed_addrBits, if_neg (Nat.not_lt.2 hr), (noConflict_iff _ _).1 hc, if_neg Bool.false_ne_true]

theorem callerAccess_conflict {r : Region} {s : State} (hr : r.base + r.len ≤ 2 ^ 64) (hc : ¬NoConflict [r] s.active)
    (s' : State) : callerAccess r s s' = .refused .conflict := by
  rw [noConflict_iff, Bool.not_eq_false] at hc
  rw [callerAccess, Config.fixed_addrBits, if_neg (Nat.not_lt.2 hr), if_pos hc]

theorem callerAccess_outside {r : Region} {s : State} (hr : 2 ^ 64 < r.base + r.len) (s' : State) :
    callerAccess r s s' = .fault .callerOutsideAddressSpace := if_pos hr

theorem startFlight_of_trap {i : Instr} {s : State} {p : Trap} (h : trapOf s.cfg i = some p) :
    startFlight i s = .next (takeFault (.invocation i) p.cause p.info s) := by
  simp [startFlight, h]

/-- The state in which a thread's invocation has begun and is in flight, its registers loaded. -/
def State.started (s : State) (t : ThreadId) (i : Instr) : State :=
  (s.onThread t).withActive (s.active ++ [{ thread := t, instr := i, regs := loadOf i s.mem }])

theorem startFlight_of_no_trap {i : Instr} {s : State} (h : trapOf s.cfg i = none) (t : ThreadId) :
    startFlight i (s.onThread t) = .next (s.started t i) := by
  simp [startFlight, h, State.started]

/-- The invocation found in flight runs its last stages and leaves. -/
theorem finish_of_find {t : ThreadId} {s : State} {f : InFlight}
    (h : s.active.find? (fun f => f.thread == t) = some f) :
    finish t s = .next (conclude f.instr (computeOf s.cfg f.instr) f.regs
      ((s.withActive (s.active.eraseP fun g => g.thread == t)).onThread t)) := by
  simp [finish, h]

/-! ### Everything an input can do -/

/-- What an input can make of a state: nothing (an idle input, a caller's read, a stopped thread's issue), a fault, an
invocation run whole, one put in flight, one ended, a caller's write, a reset. -/
inductive Effect (s : State) : State → Prop
  | idle : Effect s s
  | fault {t : ThreadId} (issued : Issued) (c : Cause) (n : Info) (may : MayIssue s t) :
      Effect s (takeFault issued c n (s.onThread t))
  | run {t : ThreadId} {i : Instr} (passes : trapOf s.cfg i = none) (clear : NoConflict (regions i) s.active) :
      Effect s (conclude i (computeOf s.cfg i) (loadOf i s.mem) (s.onThread t))
  | start {t : ThreadId} {i : Instr} (may : MayIssue s t) (wf : wellFormed i = true) (passes : trapOf s.cfg i = none)
      (clear : NoConflict (regions i) s.active) :
      Effect s (s.started t i)
  | finish {f : InFlight} (inFlight : f ∈ s.active) :
      Effect s (conclude f.instr (computeOf s.cfg f.instr) f.regs
        ((s.withActive (s.active.eraseP fun g => g.thread == f.thread)).onThread f.thread))
  | callerWrite {a : Nat} {bytes : List Byte} (inside : a + bytes.length ≤ 2 ^ 64)
      (clear : NoConflict [callerWrites a bytes.length] s.active) :
      Effect s (s.withMem (Memory.setBytes s.mem a bytes))
  | reset : Effect s (resetCore s)

/-- What issuing does, given what the core does with an invocation that passes its checks and one that fails them. -/
theorem issue_effect {t : ThreadId} {d : Descriptor} {run : Instr → State → Host.Outcome State Fault Refusal}
    {s s' : State} (h : issue t d run s = .next s')
    (hfault : ∀ i p, trapOf s.cfg i = some p →
      run i (s.onThread t) = .next (takeFault (.invocation i) p.cause p.info (s.onThread t)))
    (hrun : ∀ i, MayIssue s t → wellFormed i = true → trapOf s.cfg i = none → NoConflict (regions i) s.active →
      run i (s.onThread t) = .next s' → Effect s s') : Effect s s' := by
  obtain ⟨-, rfl⟩ | ⟨hs, hb, ⟨op, -, rfl⟩ | ⟨i, hd, hc, hr⟩⟩ := issue_cases h
  · exact .idle
  · exact .fault _ _ _ ⟨hs, hb⟩
  · cases ht : trapOf s.cfg i with
    | some p =>
      rw [hfault i p ht] at hr
      cases hr
      exact .fault _ _ _ ⟨hs, hb⟩
    | none => exact hrun i ⟨hs, hb⟩ (wellFormed_of_decode hd) ht ((noConflict_iff _ _).2 (hc ht)) hr

theorem accept_effect {e : Input} {s s' : State} (h : accept e s = .next s') : Effect s s' := by
  cases e with
  | call t d =>
    refine issue_effect h (fun i p hp => exec_of_trap hp) fun i _ _ ht hc hr => ?_
    rw [exec_of_no_trap (s := s.onThread t) ht] at hr
    cases hr
    exact .run ht hc
  | start t d =>
    refine issue_effect h (fun i p hp => startFlight_of_trap hp) fun i hm hwf ht hc hr => ?_
    rw [startFlight_of_no_trap ht] at hr
    cases hr
    exact .start hm hwf ht hc
  | finish t =>
    obtain ⟨f, hf, rfl, -, rfl⟩ := finish_cases h
    exact .finish hf
  | callerRead a n =>
    obtain ⟨rfl, -, -⟩ := callerAccess_cases h
    exact .idle
  | callerWrite a bytes =>
    obtain ⟨rfl, hin, hc⟩ := callerAccess_cases h
    exact .callerWrite hin ((noConflict_iff _ _).2 hc)
  | reset =>
    cases h
    exact .reset

/-- A step takes at most one input off the list and has one of the effects. -/
theorem step_effect {s s' : State} (h : step s = .next s') : ∃ rest, Effect (s.withInputs rest) s' := by
  obtain ⟨-, rfl⟩ | ⟨e, rest, -, hacc⟩ := step_cases h
  · exact ⟨s'.inputs, .idle⟩
  · exact ⟨rest, accept_effect hacc⟩

/-! ### What every effect keeps -/

theorem Effect.cfg_eq {s s' : State} (h : Effect s s') : s'.cfg = s.cfg := by
  cases h with
  | idle => rfl
  | fault => rfl
  | run => simp
  | start => rfl
  | finish => simp
  | callerWrite => rfl
  | reset => exact (foldl_abandon_keeps s.active s).1

theorem Effect.faults_grow {s s' : State} (h : Effect s s') : ∃ new, s'.faults = new ++ s.faults := by
  cases h with
  | idle => exact ⟨[], rfl⟩
  | fault => exact ⟨[_], rfl⟩
  | run => exact ⟨[], by simp⟩
  | start => exact ⟨[], rfl⟩
  | finish => exact ⟨[], by simp⟩
  | callerWrite => exact ⟨[], rfl⟩
  | reset => exact ⟨[], (foldl_abandon_keeps s.active s).2.1⟩

theorem step_cfg {s s' : State} (h : step s = .next s') : s'.cfg = s.cfg := by
  obtain ⟨rest, he⟩ := step_effect h
  exact he.cfg_eq

theorem step_faults_grow {s s' : State} (h : step s = .next s') : ∃ new, s'.faults = new ++ s.faults := by
  obtain ⟨rest, he⟩ := step_effect h
  exact he.faults_grow

/-- What every step keeps, every run keeps. -/
theorem run_induction {P : State → Prop} (hstep : ∀ s s', step s = .next s' → P s → P s') (n : Nat) {s s' : State}
    (h : Sys2Proof.core.run n s = .next s') (hs : P s) : P s' := by
  induction n generalizing s with
  | zero => rwa [run_zero.1 h]
  | succ n ih =>
    obtain ⟨s1, h1, h2⟩ := run_succ.1 h
    exact ih h2 (hstep s s1 h1 hs)

theorem run_cfg {n : Nat} {s s' : State} (h : Sys2Proof.core.run n s = .next s') : s'.cfg = s.cfg :=
  run_induction (P := fun u => u.cfg = s.cfg) (fun _ _ h1 h2 => (step_cfg h1).trans h2) n h rfl

theorem exec_cfg {i : Instr} {s t : State} (h : exec i s = .next t) : t.cfg = s.cfg := by
  obtain ⟨p, -, rfl⟩ | ⟨-, rfl⟩ := exec_cases h <;> simp

/-! ### The statements -/

/-- Settles O7: a call is an issue whose invocation runs whole. -/
theorem stepRunsTheDecodedInvocation : Obligations.StepRunsTheDecodedInvocation :=
  fun s _ _ rest _ hi hm hd hc => (step_of_inputs hi).trans (issue_run (s := s.withInputs rest) hm hd hc exec)

/-- Settles O8: the free thread may issue, and the input `withFetchWord` puts in front is the one the step takes off. -/
theorem nextStepRunsTheTableWord : Obligations.NextStepRunsTheTableWord := by
  intro s nbits w i hw hc
  have hd : decode (tableDescriptor nbits w) = .ok i := by
    unfold decodeTableWord at hw
    split at hw <;> simp_all
  exact ⟨s.freeThread, freeThread_free s,
    stepRunsTheDecodedInvocation (s.withFetchWord nbits w) s.freeThread (tableDescriptor nbits w) s.inputs i rfl
      (freeThread_free s) hd (.inr hc)⟩

/-- Settles O9: the reserved opcode is seen before anything else of the descriptor. -/
theorem reservedOpcodeFaults : Obligations.ReservedOpcodeFaults := by
  intro s t d rest hi hm hop
  rcases hi with hi | hi <;> rw [step_of_inputs hi]
  · exact issue_reserved (s := s.withInputs rest) hm (decode_reserved hop) exec
  · exact issue_reserved (s := s.withInputs rest) hm (decode_reserved hop) startFlight

/-- Settles O10: there is no input to take. -/
theorem idleCoreStaysAsItIs : Obligations.IdleCoreStaysAsItIs := by
  intro s hi
  unfold step
  rw [hi]

/-- Settles O49: the check against what is in flight, at an issue and at each of the caller's accesses. -/
theorem conflictingExecutionIsRefused : Obligations.ConflictingExecutionIsRefused := by
  refine ⟨fun s t d rest i hi hm hd ht hc => ?_, fun s a n rest hi hin hc => ?_, fun s a bytes rest hi hin hc => ?_⟩
  · rcases hi with hi | hi <;> rw [step_of_inputs hi]
    · exact issue_conflict (s := s.withInputs rest) hm hd ht hc exec
    · exact issue_conflict (s := s.withInputs rest) hm hd ht hc startFlight
  · rw [step_of_inputs hi]
    exact callerAccess_conflict (s := s.withInputs rest) hin hc _
  · rw [step_of_inputs hi]
    exact callerAccess_conflict (s := s.withInputs rest) hin hc _

/-- Settles O50: a busy thread's issue is refused before its descriptor is read, and nothing is found to finish. -/
theorem threadRunsOneInvocationAtATime : Obligations.ThreadRunsOneInvocationAtATime := by
  refine ⟨fun s t d rest hi hs hb => ?_, fun s t rest hi hb => ?_⟩
  · rcases hi with hi | hi <;> rw [step_of_inputs hi]
    · exact issue_busy (s := s.withInputs rest) hs hb d exec
    · exact issue_busy (s := s.withInputs rest) hs hb d startFlight
  · have hnone : s.active.find? (fun f => f.thread == t) = none := by
      simpa using (busy_eq_false_iff s t).1 hb
    rw [step_of_inputs hi]
    simp [accept, finish, hnone]

/-- Settles O58: no effect of an input changes the configuration, nor does an operation. -/
theorem configurationNeverChanges : Obligations.ConfigurationNeverChanges :=
  ⟨fun _ _ h => step_cfg h, fun _ _ _ h => exec_cfg h⟩

end Sys2Proof.Machine
end

section
/-! PROOFS. The machine's invariant: it holds at launch and every effect of an input keeps it; and what follows of the
invocations in flight (20_memory.md section 7) and of reset (70_reset_and_hazards.md section 1). -/

namespace Sys2Proof.Machine

/-! ### Conflicts and the bytes an invocation reads -/

theorem NoConflict.of_mem {rs : List Region} {fs : List InFlight} (h : NoConflict rs fs) {f : InFlight} (hf : f ∈ fs) :
    NoConflict rs [f] := fun g hg => h g (List.mem_singleton.1 hg ▸ hf)

theorem NoConflict.of_instr_eq {rs : List Region} {f g : InFlight} (h : NoConflict rs [f]) (e : g.instr = f.instr) :
    NoConflict rs [g] := fun x hx => by
  rw [List.mem_singleton.1 hx, e]
  exact h f (List.mem_singleton_self f)

/-- What an invocation stores meets no region of one it does not conflict with. -/
theorem NoConflict.destination_disjoint {i : Instr} {f : InFlight} (h : NoConflict (regions i) [f]) {dst : Nat}
    (hd : destination i = some dst) {r : Region} (hr : r ∈ regions f.instr) :
    dst + 16 ≤ r.base ∨ r.base + r.len ≤ dst := by
  obtain ⟨q, hq, rfl, hlen, hw⟩ := destination_region hd
  rw [← hlen]
  exact h f (List.mem_singleton_self f) q hq r hr (.inl hw)

/-- Neither do the destinations of the two meet. -/
theorem NoConflict.destinations_disjoint {i : Instr} {f : InFlight} (h : NoConflict (regions i) [f]) {p q : Nat}
    (hp : destination i = some p) (hq : destination f.instr = some q) : p + 16 ≤ q ∨ q + 16 ≤ p := by
  obtain ⟨r, hr, rfl, hlen, -⟩ := destination_region hq
  simpa only [hlen] using h.destination_disjoint hp hr

/-- The last stages of one invocation leave another's reading stage as it was, where the two do not conflict. -/
theorem loadOf_conclude {i : Instr} {f : InFlight} (h : NoConflict (regions i) [f]) (c : Regs → Regs) (r : Regs)
    (s : State) : loadOf f.instr (conclude i c r s).mem = loadOf f.instr s.mem := by
  refine loadOf_congr _ _ _ fun q hq _ k hk => conclude_byte _ _ _ _ _ fun dst hd => ?_
  have := h.destination_disjoint hd hq
  omega

/-- A caller's write leaves the reading stage of an invocation it does not conflict with as it was. -/
theorem loadOf_setBytes {a : Nat} {bytes : List Byte} {f : InFlight}
    (h : NoConflict [callerWrites a bytes.length] [f]) (m : Memory) :
    loadOf f.instr (Memory.setBytes m a bytes) = loadOf f.instr m := by
  refine loadOf_congr _ _ _ fun q hq _ k hk => Memory.byte_setBytes_outside _ _ _ _ ?_
  have : a + bytes.length ≤ q.base ∨ q.base + q.len ≤ a :=
    h f (List.mem_singleton_self f) _ (List.mem_singleton_self _) q hq (.inl rfl)
  omega

/-! ### The invocations in flight, one of each thread -/

/-- Where a thread has at most one invocation in flight, taking its first out takes all of them out. -/
theorem eraseP_thread {fs : List InFlight} (h : fs.Pairwise fun f g => f.thread ≠ g.thread) (t : ThreadId) :
    (fs.eraseP fun g => g.thread == t) = fs.filter fun g => g.thread != t := by
  induction fs with
  | nil => rfl
  | cons f fs ih =>
    obtain ⟨hf, hfs⟩ := List.pairwise_cons.1 h
    by_cases hft : f.thread = t
    · subst hft
      have hall : ∀ g ∈ fs, (g.thread != f.thread) = true := fun g hg => by simpa using (hf g hg).symm
      rw [List.eraseP_cons_of_pos (by simp), List.filter_cons_of_neg (by simp), List.filter_eq_self.2 hall]
    · rw [List.eraseP_cons_of_neg (by simpa using hft), List.filter_cons_of_pos (by simpa using hft), ih hfs]

theorem Inv.eq_of_thread_eq {s : State} (h : Inv s) {f g : InFlight} (hf : f ∈ s.active) (hg : g ∈ s.active)
    (ht : f.thread = g.thread) : f = g := by
  have : Std.Symm fun f g : InFlight => f.thread ≠ g.thread := ⟨fun _ _ => Ne.symm⟩
  by_contra hne
  exact h.oneInFlight.forall hf hg hne ht

theorem Inv.noConflict_of_ne {s : State} (h : Inv s) {f g : InFlight} (hf : f ∈ s.active) (hg : g ∈ s.active)
    (hne : f ≠ g) : NoConflict (regions f.instr) [g] := by
  have : Std.Symm fun f g : InFlight => NoConflict (regions f.instr) [g] := ⟨fun _ _ => noConflict_symm⟩
  exact h.noConflict.forall hf hg hne

theorem Inv.find_thread {s : State} (h : Inv s) {f : InFlight} (hf : f ∈ s.active) :
    s.active.find? (fun g => g.thread == f.thread) = some f := by
  cases hg : s.active.find? fun g => g.thread == f.thread with
  | none => simpa using List.find?_eq_none.1 hg f hf
  | some g => rw [h.eq_of_thread_eq (List.mem_of_find?_eq_some hg) hf (by simpa using List.find?_some hg)]

/-! ### Every effect keeps the invariant -/

/-- The invariant survives where no invocation comes into flight, no fault is recorded, memory stays canonical, and
those still in flight would read what they read. -/
theorem Inv.of_sublist {s s' : State} (h : Inv s) (hcfg : s'.cfg = s.cfg) (hact : s'.active.Sublist s.active)
    (hfaults : s'.faults = s.faults) (hwf : Memory.wf s'.mem)
    (hload : ∀ f ∈ s'.active, loadOf f.instr s'.mem = loadOf f.instr s.mem) : Inv s' where
  memory := hwf
  oneInFlight := h.oneInFlight.sublist hact
  runningNotStopped f hf := by
    rw [State.stopped, hfaults]
    exact h.runningNotStopped f (hact.subset hf)
  admitted f hf := by
    rw [hcfg]
    exact h.admitted f (hact.subset hf)
  noConflict := h.noConflict.sublist hact
  loaded f hf := by
    rw [hload f hf]
    exact h.loaded f (hact.subset hf)
  oneFault := by
    rw [hfaults]
    exact h.oneFault

theorem Inv.withInputs {s : State} (h : Inv s) (rest : List Input) : Inv (s.withInputs rest) :=
  h.of_sublist rfl (List.Sublist.refl _) rfl h.memory fun _ _ => rfl

/-- A thread that may issue and takes a fault has nothing in flight and no earlier fault. -/
theorem Inv.takeFault {s : State} (h : Inv s) {t : ThreadId} (hm : MayIssue s t) (issued : Issued) (c : Cause)
    (n : Info) : Inv (takeFault issued c n (s.onThread t)) := by
  obtain ⟨hs, hb⟩ := hm
  rw [stopped_eq_false_iff] at hs
  rw [busy_eq_false_iff] at hb
  refine { h with runningNotStopped := fun f hf => ?_, oneFault := ?_ }
  · rw [stopped_eq_false_iff, takeFault_faults, List.forall_mem_cons]
    exact ⟨(hb f hf).symm, (stopped_eq_false_iff s _).1 (h.runningNotStopped f hf)⟩
  · rw [takeFault_faults, List.pairwise_cons]
    exact ⟨fun e he => (hs e he).symm, h.oneFault⟩

/-- An invocation that comes into flight was admitted, is its thread's only one, and has just read memory. -/
theorem Inv.start {s : State} (h : Inv s) {t : ThreadId} {i : Instr} (hm : MayIssue s t) (hwf : wellFormed i = true)
    (ht : trapOf s.cfg i = none) (hc : NoConflict (regions i) s.active) :
    Inv (s.started t i) := by
  obtain ⟨hs, hb⟩ := hm
  rw [busy_eq_false_iff] at hb
  have both {P : InFlight → Prop} (hold : ∀ f ∈ s.active, P f) (hnew : P ⟨t, i, loadOf i s.mem⟩) :
      ∀ f ∈ s.active ++ [⟨t, i, loadOf i s.mem⟩], P f := fun f hf => by
    rcases List.mem_append.1 hf with hf | hf
    · exact hold f hf
    · rwa [List.mem_singleton.1 hf]
  refine { memory := h.memory, oneFault := h.oneFault, oneInFlight := ?_, noConflict := ?_,
           runningNotStopped := both h.runningNotStopped hs, admitted := both h.admitted ⟨hwf, ht⟩,
           loaded := both h.loaded rfl }
  · refine List.pairwise_append.2 ⟨h.oneInFlight, List.pairwise_singleton _ _, fun f hf g hg => ?_⟩
    rw [List.mem_singleton.1 hg]
    exact hb f hf
  · refine List.pairwise_append.2 ⟨h.noConflict, List.pairwise_singleton _ _, fun f hf g hg => ?_⟩
    rw [List.mem_singleton.1 hg]
    exact noConflict_symm (f := ⟨t, i, loadOf i s.mem⟩) (hc.of_mem hf)

/-- An invocation that ends stores what no other in flight reads or writes. -/
theorem Inv.finish {s : State} (h : Inv s) {f : InFlight} (hf : f ∈ s.active) :
    Inv (conclude f.instr (computeOf s.cfg f.instr) f.regs
      ((s.withActive (s.active.eraseP fun g => g.thread == f.thread)).onThread f.thread)) := by
  obtain ⟨-, ht⟩ := h.admitted f hf
  refine h.of_sublist (by simp) (by simpa using List.eraseP_sublist) (by simp)
    (conclude_wf _ _ _ _ h.memory (destination_bound ht)) fun g hg => ?_
  rw [conclude_active, State.onThread_active, State.withActive_active, eraseP_thread h.oneInFlight,
    List.mem_filter] at hg
  obtain ⟨hga, hne⟩ := hg
  have hne : f ≠ g := by
    rintro rfl
    simp at hne
  exact loadOf_conclude (h.noConflict_of_ne hf hga hne) _ _ _

theorem Inv.effect {s s' : State} (h : Inv s) (he : Effect s s') : Inv s' := by
  cases he with
  | idle => exact h
  | fault issued c n may => exact h.takeFault may issued c n
  | run passes clear =>
    exact h.of_sublist (by simp) (by simp) (by simp) (conclude_wf _ _ _ _ h.memory (destination_bound passes))
      fun f hf => loadOf_conclude (clear.of_mem (by simpa using hf)) _ _ _
  | start may wf passes clear => exact h.start may wf passes clear
  | finish inFlight => exact h.finish inFlight
  | callerWrite inside clear =>
    exact h.of_sublist rfl (List.Sublist.refl _) rfl (Memory.setBytes_wf h.memory _ inside)
      fun f hf => loadOf_setBytes (clear.of_mem hf) _
  | reset =>
    obtain ⟨hcfg, hfaults, -, -, -⟩ := foldl_abandon_keeps s.active s
    exact h.of_sublist hcfg (List.nil_sublist _) hfaults
      (foldl_abandon_wf _ _ h.memory fun f hf => destination_bound (h.admitted f hf).2) fun f hf => nomatch hf

/-- Settles O54: a step takes an input off the list and has one of the effects, each of which keeps the invariant. -/
theorem everyStepKeepsTheInvariant : Obligations.EveryStepKeepsTheInvariant := by
  intro s s' h hstep
  obtain ⟨rest, he⟩ := step_effect hstep
  exact (h.withInputs rest).effect he

/-- Settles O53: at launch memory, what is in flight and the fault record are empty. -/
theorem launchStateMeetsTheInvariant : Obligations.LaunchStateMeetsTheInvariant where
  memory := ⟨List.Pairwise.nil, fun _ hc => nomatch hc⟩
  oneInFlight := List.Pairwise.nil
  runningNotStopped _ hf := nomatch hf
  admitted _ hf := nomatch hf
  noConflict := List.Pairwise.nil
  loaded _ hf := nomatch hf
  oneFault := List.Pairwise.nil

/-! ### Starting and finishing -/

theorem step_start {s : State} {t : ThreadId} {d : Descriptor} {rest : List Input} {i : Instr}
    (hi : s.inputs = .start t d :: rest) (hm : MayIssue s t) (hd : decode d = .ok i) (ht : trapOf s.cfg i = none)
    (hc : NoConflict (regions i) s.active) : step s = .next ((s.withInputs rest).started t i) :=
  calc step s = startFlight i ((s.withInputs rest).onThread t) :=
        (step_of_inputs hi).trans (issue_run (s := s.withInputs rest) hm hd (.inr hc) startFlight)
    _ = _ := startFlight_of_no_trap (s := s.withInputs rest) ht t

/-- Settles O47: a start is an issue whose invocation is put in flight unless it faults. -/
theorem startPutsTheInvocationInFlight : Obligations.StartPutsTheInvocationInFlight := by
  refine ⟨fun s t d rest i hi hm hd ht hc => step_start hi hm hd ht hc, fun s t d rest i p hi hm hd hp => ?_⟩
  have hne : trapOf s.cfg i ≠ none := by simp [hp]
  calc step s = startFlight i ((s.withInputs rest).onThread t) :=
        (step_of_inputs hi).trans (issue_run (s := s.withInputs rest) hm hd (.inl hne) startFlight)
    _ = _ := startFlight_of_trap (s := (s.withInputs rest).onThread t) hp

/-- An invocation that comes into flight leaves the other threads free to issue. -/
theorem MayIssue.started {s : State} {t u : ThreadId} (h : MayIssue s u) (htu : t ≠ u) (i : Instr) :
    MayIssue (s.started t i) u := by
  obtain ⟨hs, hb⟩ := h
  refine ⟨hs, (busy_eq_false_iff _ u).2 fun g hg => ?_⟩
  rcases List.mem_append.1 hg with hg | hg
  · exact (busy_eq_false_iff s u).1 hb g hg
  · rwa [List.mem_singleton.1 hg]

/-- Settles O48, by induction on the threads: each start puts one query in flight, and leaves
the threads to come free. -/
theorem anyNumberOfThreadsMayBeInFlight : Obligations.AnyNumberOfThreadsMayBeInFlight := by
  intro s ts leaf subleaf hnodup hmay
  induction ts generalizing s with
  | nil => exact ⟨{ s with inputs := [] }, run_zero.2 rfl, by simp⟩
  | cons t ts ih =>
    obtain ⟨htnot, hnodup⟩ := List.nodup_cons.1 hnodup
    obtain ⟨hmt, hmts⟩ := List.forall_mem_cons.1 hmay
    have hfree : ∀ u ∈ ts, MayIssue (s.started t (.queryCPUID leaf subleaf)) u := fun u hu =>
      (hmts u hu).started (by rintro rfl; exact htnot hu) _
    obtain ⟨s', hrun, hact, hmem, hfaults, hended⟩ := ih _ hnodup hfree
    refine ⟨s', run_succ.2 ⟨_, ?_, hrun⟩, ?_, hmem, hfaults, hended⟩
    · exact step_start (s := s.withInputs (.start t (encode (.queryCPUID leaf subleaf)) :: _)) rfl hmt
        (decode_encode rfl) (trapOf_queryCPUID _ _ _) fun _ _ _ hr => nomatch hr
    · rw [hact]
      simp [State.started]

/-- Settles O55: under the invariant the invocation found is the one meant, passed its checks, and holds what it would
read now. -/
theorem finishingIsRunningAloneAtTheEnd : Obligations.FinishingIsRunningAloneAtTheEnd := by
  intro s f rest h hf hi
  obtain ⟨-, ht⟩ := h.admitted f hf
  rw [step_of_inputs hi, ← eraseP_thread h.oneInFlight]
  refine (finish_of_find (s := s.withInputs rest) (h.find_thread hf)).trans ?_
  rw [h.loaded f hf]
  exact (exec_of_no_trap (s := ((s.withInputs rest).withActive _).onThread f.thread) ht).symm

/-! ### Reset -/

/-- A draw is counted, never taken back. -/
theorem abandon_draws_le (s : State) (f : InFlight) : s.draws ≤ (abandon s f).draws := by
  unfold abandon
  cases destination f.instr <;> simp

theorem foldl_abandon_draws_le (fs : List InFlight) (s : State) : s.draws ≤ (fs.foldl abandon s).draws := by
  induction fs generalizing s with
  | nil => exact Nat.le_refl _
  | cons f fs ih => exact (abandon_draws_le s f).trans (ih _)

theorem abandon_of_destination {f : InFlight} {dst : Nat} (h : destination f.instr = some dst) (s : State) :
    abandon s f = (s.withMem (Memory.writeBlock s.mem dst (Config.draw s.draws))).drawn := by
  simp [abandon, h]

/-- Where no two of them conflict, each lost invocation's destination holds a value drawn in this reset (R183). -/
theorem foldl_abandon_destination {fs : List InFlight} (hc : fs.Pairwise fun f g => NoConflict (regions f.instr) [g])
    (s : State) {f : InFlight} (hf : f ∈ fs) {dst : Nat} (hd : destination f.instr = some dst) :
    ∃ n, s.draws ≤ n ∧ n < (fs.foldl abandon s).draws ∧
      Memory.readBlock (fs.foldl abandon s).mem dst = Config.draw n := by
  induction fs generalizing s with
  | nil => cases hf
  | cons g gs ih =>
    obtain ⟨hg, hgs⟩ := List.pairwise_cons.1 hc
    rw [List.foldl_cons]
    rcases List.mem_cons.1 hf with rfl | hf
    · refine ⟨s.draws, Nat.le_refl _, ?_, ?_⟩
      · refine Nat.lt_of_lt_of_le ?_ (foldl_abandon_draws_le gs (abandon s f))
        rw [abandon_of_destination hd, State.drawn_draws, State.withMem_draws]
        exact Nat.lt_succ_self _
      · calc Memory.readBlock (gs.foldl abandon (abandon s f)).mem dst
            = Memory.readBlock (abandon s f).mem dst :=
              Memory.readBlock_congr _ _ _ fun k hk => foldl_abandon_byte gs _ _ fun g hgm q hq => by
                have := (hg g hgm).destinations_disjoint hd hq
                omega
          _ = Config.draw s.draws := by
            rw [abandon_of_destination hd, State.drawn_mem, State.withMem_mem]
            exact (storesBlock_writeBlock s.mem dst _).1
    · obtain ⟨n, hle, hlt, hread⟩ := ih hgs (abandon s g) hf
      exact ⟨n, (abandon_draws_le s g).trans hle, hlt, hread⟩

theorem step_reset {s : State} {rest : List Input} (h : s.inputs = .reset :: rest) :
    step s = .next (resetCore (s.withInputs rest)) := step_of_inputs h

/-- Settles O59: nothing is in flight for an invocation to meet. -/
theorem coreIsIdleAndAcceptsAfterReset : Obligations.CoreIsIdleAndAcceptsAfterReset := by
  refine fun s rest hi => ⟨_, step_reset hi, rfl, fun u i hm hwf => ?_⟩
  exact stepRunsTheDecodedInvocation _ u (encode i) [] i rfl hm (decode_encode hwf) (.inr fun f hf => nomatch hf)

/-- Settles O60: the invocations in flight are lost one after another, and no destination meets another. -/
theorem resetAbandonsWhatIsInFlight : Obligations.ResetAbandonsWhatIsInFlight := by
  intro s rest h hi
  obtain ⟨hcfg, hfaults, hended, -, hinputs⟩ := foldl_abandon_keeps s.active (s.withInputs rest)
  exact ⟨_, step_reset hi, rfl, hended, hfaults, hcfg, hinputs,
    fun a ha => foldl_abandon_byte s.active (s.withInputs rest) a ha,
    fun f hf dst hd => foldl_abandon_destination h.noConflict (s.withInputs rest) hf hd⟩

end Sys2Proof.Machine
end

section
/-! PROOFS. What an operation leaves unchanged, how it ends, and its faults (60_exceptions.md); the query and the table
(40_cpuid.md); the caller's memory (20_memory.md). -/

namespace Sys2Proof.Machine

/-! ### How an invocation ends -/

/-- An operation without a destination has no regions to keep apart. -/
theorem disciplined_of_no_destination {i : Instr} (h : destination i = none) : Disciplined (regions i) := by
  cases i with
  | queryCPUID leaf subleaf => exact List.Pairwise.nil
  | _ => cases h

/-- The last stages record one outcome, `Undefined` exactly where the discipline is broken. -/
theorem conclude_ended (i : Instr) (f : Regs → Regs) (r : Regs) (s : State) :
    ∃ e, (conclude i f r s).ended = { thread := s.thread, instr := i, ending := e } :: s.ended
      ∧ (e = .undefined ↔ ¬Disciplined (regions i)) := by
  obtain ⟨w, hd, e⟩ | ⟨dst, -, hdis, e⟩ | ⟨dst, -, hdis, e⟩ := conclude_cases i f r s <;> rw [e]
  · exact ⟨.returned w, by simp, by simp [disciplined_of_no_destination hd]⟩
  · exact ⟨.done, by simp, by simp [hdis]⟩
  · exact ⟨.undefined, by simp, by simp [hdis]⟩

/-- The fault an invocation takes, in the terms of the statements. -/
theorem exec_faulted {i : Instr} {s : State} {p : Trap} (h : trapOf s.cfg i = some p) :
    exec i s = .next (faulted i p.cause p.info s) := exec_of_trap h

theorem exec_incapable {i : Instr} {s : State} (h : capable s.cfg i = false) :
    exec i s = .next (faulted i .illegalInstruction (.op (opcode i)) s) := exec_faulted (trapOf_incapable h)

/-- With its extensions present, an operation can fault only for a region (R158). -/
theorem trapOf_capable {c : Config} {i : Instr} {p : Trap} (h : capable c i = true) (hp : trapOf c i = some p) :
    ∃ a, p = { cause := .memoryFault, info := .base a } := by
  rw [trapOf, if_pos h] at hp
  cases hca : checkAccess c (regions i) with
  | none => simp [hca] at hp
  | some a =>
    simp only [hca, Option.some.injEq] at hp
    exact ⟨a, hp.symm⟩

theorem exec_capable {i : Instr} {s t : State} (hcap : capable s.cfg i = true) (h : exec i s = .next t) :
    t.faults = s.faults ∨
      ∃ a, t.faults =
        { thread := s.thread, issued := .invocation i, cause := .memoryFault, info := .base a } :: s.faults := by
  obtain ⟨p, hp, rfl⟩ | ⟨-, rfl⟩ := exec_cases h
  · obtain ⟨a, rfl⟩ := trapOf_capable hcap hp
    exact .inr ⟨a, rfl⟩
  · exact .inl (conclude_faults _ _ _ _)

theorem capable_of_extensions {c : Config} (hs : c.hasSimd = true) (ha : c.hasAes = true) (i : Instr) :
    capable c i = true := by
  cases i <;> simp [capable, hs, ha]

/-! ### What an operation reads of the state -/

/-- An operation does not look at the fault record, and at the configuration only in its checks and its computation. -/
theorem exec_withCfg_withFaults {i : Instr} {s t : State} (h : exec i s = .next t) {c : Config}
    (htrap : trapOf c i = trapOf s.cfg i) (hcomp : computeOf c i = computeOf s.cfg i) (fs : List FaultEntry) :
    ∃ new, t.faults = new ++ s.faults ∧
      exec i { s with cfg := c, faults := fs } = .next { t with cfg := c, faults := new ++ fs } := by
  obtain ⟨p, hp, rfl⟩ | ⟨hp, rfl⟩ := exec_cases h
  · exact ⟨[_], rfl, exec_of_trap (s := { s with cfg := c, faults := fs }) (htrap.trans hp)⟩
  · refine ⟨[], conclude_faults _ _ _ _, ?_⟩
    rw [exec_of_no_trap (s := { s with cfg := c, faults := fs }) (htrap.trans hp), hcomp]
    cases hd : destination i with
    | none => rw [conclude_returning hd, conclude_returning hd]; rfl
    | some dst =>
      by_cases hdis : Disciplined (regions i)
      · rw [conclude_storing hd hdis, conclude_storing hd hdis]; rfl
      · rw [conclude_drawing hd hdis, conclude_drawing hd hdis]; rfl

/-- The checks do not look at the table. -/
theorem trapOf_withTable (c : Config) (es : List CpuidEntry) (rest : Option CapWords) (i : Instr) :
    trapOf { c with cpuid := es, cpuidRest := rest } i = trapOf c i := by
  cases i <;> rfl

/-- Only the query's computation looks at the configuration. -/
theorem computeOf_eq_of_not_query {i : Instr} (h : ∀ leaf subleaf, i ≠ .queryCPUID leaf subleaf) (c c' : Config) :
    computeOf c i = computeOf c' i := by
  cases i with
  | queryCPUID leaf subleaf => exact absurd rfl (h leaf subleaf)
  | _ => rfl

/-! ### The statements: the frame -/

/-- Settles O34: a fault adds to the record, and the last stages store at the destination and record the outcome. -/
theorem operationsChangeOnlyTheirDestination : Obligations.OperationsChangeOnlyTheirDestination := by
  intro i s t h
  have hbyte : ∀ a, (∀ dst, destination i = some dst → a < dst ∨ dst + 16 ≤ a) →
      Memory.byte t.mem a = Memory.byte s.mem a := fun a ha => exec_byte_outside h ha
  obtain ⟨p, -, rfl⟩ | ⟨-, rfl⟩ := exec_cases h
  · exact ⟨rfl, rfl, rfl, rfl, hbyte⟩
  · exact ⟨conclude_cfg _ _ _ _, conclude_active _ _ _ _, conclude_thread _ _ _ _, conclude_inputs _ _ _ _, hbyte⟩

/-- Settles O36: under the discipline a region that is not the destination Block is apart from it. -/
theorem keyMaterialAndSourcesAreNotWritten : Obligations.KeyMaterialAndSourcesAreNotWritten := by
  intro i s t r h hdis hr hw hne k hk
  refine exec_byte_outside h fun dst hd => ?_
  obtain ⟨q, hq, rfl, hlen, hqw⟩ := destination_region hd
  have hrq : r ≠ q := by
    rintro rfl
    simp [hw] at hqw
  have : Std.Symm Apart := ⟨fun r q hrq => by unfold Apart at hrq ⊢; omega⟩
  have hapart : Apart r q := List.Pairwise.forall hdis hr hq hrq
  have := hne _ hd
  unfold Apart at hapart
  omega

/-- Settles O37: with no fault and the discipline broken the last stages store a drawn Block. -/
theorem brokenDisciplineDrawsTheDestination : Obligations.BrokenDisciplineDrawsTheDestination := by
  intro i dst s hd hcap hacc hdis
  have ht := (trapOf_eq_none_iff s.cfg i).2 ⟨hcap, hacc⟩
  refine ⟨_, exec_undefined ht hd hdis, ?_, by simp [OnlyResult], by simp, by simp⟩
  rw [State.retire_mem, State.drawn_mem, State.withMem_mem]
  exact storesBlock_writeBlock _ _ _

/-- Settles O38: the checks fail and the fault is taken, or they pass and the last stages record an outcome. -/
theorem everyInvocationEnds : Obligations.EveryInvocationEnds := by
  intro i s
  cases hp : trapOf s.cfg i with
  | some p => exact ⟨_, exec_faulted hp, .inr ⟨rfl, _, _, rfl⟩⟩
  | none =>
    obtain ⟨e, he, -⟩ := conclude_ended i (computeOf s.cfg i) (loadOf i s.mem) s
    exact ⟨_, exec_of_no_trap hp, .inl ⟨conclude_faults _ _ _ _, e, he⟩⟩

/-! ### The statements: faults -/

/-- Settles O39: the extensions are tested first, and an operation that has both cannot raise this cause. -/
theorem missingAesExtensionFaults : Obligations.MissingAesExtensionFaults := by
  intro s st key
  refine ⟨fun h => ⟨exec_incapable (by simp [capable, h]), exec_incapable (by simp [capable, h])⟩, ?_⟩
  intro ha i _ t n h ht
  by_contra hs
  rw [Bool.not_eq_false] at hs
  rcases exec_capable (capable_of_extensions hs ha i) h with hf | ⟨a, hf⟩ <;> simp [ht, faulted] at hf

/-- Settles O40: all five operations need the 128-bit extension, and with both none raises this cause. -/
theorem missingSimdExtensionFaults : Obligations.MissingSimdExtensionFaults := by
  intro s
  refine ⟨fun h a b c d dst st key => ?_, fun hs ha i t h => exec_capable (capable_of_extensions hs ha i) h⟩
  have hno (i : Instr) (hi : capable s.cfg i = false) := exec_incapable hi
  exact ⟨hno _ h, hno _ h, hno _ h, hno _ (by simp [capable, h]), hno _ (by simp [capable, h])⟩

/-- Settles O41: the check runs through the regions in operand order. -/
theorem firstInaccessibleRegionFaults : Obligations.FirstInaccessibleRegionFaults := by
  refine fun i s hcap => ⟨fun before r after he hb hr => ?_, fun hacc => ?_⟩
  · exact exec_faulted (trapOf_inaccessible hcap before r after he hb hr)
  · exact ⟨_, exec_of_no_trap ((trapOf_eq_none_iff s.cfg i).2 ⟨hcap, hacc⟩), conclude_faults _ _ _ _⟩

/-- Settles O42: an invocation whose checks pass records an outcome and no fault. -/
theorem nothingElseIsAFault : Obligations.NothingElseIsAFault := by
  refine ⟨fun i s hcap hacc => ?_, fun leaf subleaf s => ⟨_, _, exec_queryCPUID leaf subleaf s, rfl, rfl⟩⟩
  obtain ⟨e, he, hiff⟩ := conclude_ended i (computeOf s.cfg i) (loadOf i s.mem) s
  exact ⟨_, e, exec_of_no_trap ((trapOf_eq_none_iff s.cfg i).2 ⟨hcap, hacc⟩), conclude_faults _ _ _ _, he, hiff⟩

theorem stopped_of_faults_append {s s' : State} {new : List FaultEntry} (h : s'.faults = new ++ s.faults)
    {u : ThreadId} (hs : s.stopped u = true) : s'.stopped u = true := by
  rw [State.stopped, h, List.any_append, ← State.stopped, hs, Bool.or_true]

/-- Settles O43: a fault is one entry more in a record that never loses one and that an issue looks at first. -/
theorem faultIsCleanAndStopsItsThread : Obligations.FaultIsCleanAndStopsItsThread := by
  refine ⟨fun i s t h hf => ?_, fun i c n s u => ?_, fun s s' u h hs => ?_, fun s u d rest hs hi => ?_,
    fun s s' n hs h hfinal => ?_⟩
  · obtain ⟨p, -, rfl⟩ | ⟨hp, -⟩ := exec_cases h
    · exact ⟨_, _, rfl⟩
    · exact absurd ((exec_faults_eq_iff h).2 hp) hf
  · rw [State.stopped, faulted, List.any_cons, Bool.or_comm, State.stopped]
    simp [eq_comm, Bool.beq_eq_decide_eq]
  · obtain ⟨new, hnew⟩ := step_faults_grow h
    exact stopped_of_faults_append hnew hs
  · rcases hi with hi | hi <;> rw [step_of_inputs hi]
    · exact issue_stopped (s := s.withInputs rest) hs d exec
    · exact issue_stopped (s := s.withInputs rest) hs d startFlight
  · obtain ⟨-, -, hnone⟩ := hfinal
    refine run_induction (P := fun u => u.faults ≠ []) (fun u u' hstep hu => ?_) n h hs hnone
    obtain ⟨new, hnew⟩ := step_faults_grow hstep
    simp [hnew, hu]

/-- Settles O44: no effect of an input takes an entry away, and an operation only puts its own in front. -/
theorem faultRecordOnlyGrows : Obligations.FaultRecordOnlyGrows := by
  refine ⟨rfl, fun s s' h => step_faults_grow h, fun i s t fs h => ?_⟩
  obtain ⟨new, hnew, hexec⟩ := exec_withCfg_withFaults h (c := s.cfg) rfl rfl fs
  refine ⟨new, hnew, hexec.trans ?_⟩
  rw [← exec_cfg h]

/-! ### The statements: the query -/

/-- Settles O11: the query has no checks to fail, and its computation returns the table's words. -/
theorem queryReturnsTheTablesWordsUntouched : Obligations.QueryReturnsTheTablesWordsUntouched :=
  fun leaf subleaf s => exec_queryCPUID leaf subleaf s

/-- Settles O13: a run keeps the configuration, and with it the table. -/
theorem queryIsStableAlongEveryRun : Obligations.QueryIsStableAlongEveryRun := by
  intro n s s' leaf subleaf h
  refine ⟨cpuidTable s.cfg leaf subleaf, exec_queryCPUID leaf subleaf s, ?_⟩
  rw [← run_cfg h]
  exact exec_queryCPUID leaf subleaf s'

/-- Settles O14: the words the caller saw are those of the table, which the premise ties to the extensions, and a run
keeps the configuration. -/
theorem probedCallerTakesNoIllegalInstruction : Obligations.ProbedCallerTakesNoIllegalInstruction := by
  intro s t u v n words i hcons hq hended haes hsimd hrun hv
  have hcfg : u.cfg = s.cfg := (run_cfg hrun).trans (exec_cfg hq)
  have hwords : words = cpuidTable s.cfg 1 0 := by
    rw [exec_queryCPUID] at hq
    cases hq
    simpa using hended.symm
  subst hwords
  obtain ⟨ha, hs⟩ := hcons
  exact exec_capable (capable_of_extensions (by rw [hcfg, hs, hsimd]) (by rw [hcfg, ha, haes]) i) hv

/-- Settles O15: neither the checks nor the computation of such an operation looks at the table. -/
theorem tableDecidesNoOtherOperation : Obligations.TableDecidesNoOtherOperation := by
  intro i s t es rest hi h
  obtain ⟨new, hnew, hexec⟩ := exec_withCfg_withFaults h (trapOf_withTable s.cfg es rest i)
    (computeOf_eq_of_not_query hi _ _) s.faults
  rw [← hnew] at hexec
  rw [exec_cfg h]
  exact hexec

/-! ### The statements: memory -/

/-- Settles O45: the bytes inside the Block written, those outside, and both read together. -/
theorem blockWriteSetsSixteenBytes : Obligations.BlockWriteSetsSixteenBytes := by
  intro m a v
  obtain ⟨hread, hout⟩ := storesBlock_writeBlock m a v
  exact ⟨fun k hk => Memory.byte_writeBlock_inside m a v k hk, hout, hread⟩

/-- Settles O46: an access that passes its two checks has its effect on memory and no other. -/
theorem callerOwnsItsMemory : Obligations.CallerOwnsItsMemory := by
  refine ⟨fun s a bytes rest hi hin hc => ?_, fun s a n rest hi hin hc => ?_, fun s a n bytes rest h => ?_⟩
  · refine ⟨(s.withInputs rest).withMem (Memory.setBytes s.mem a bytes), ?_,
      fun k hk => Memory.byte_setBytes_inside _ _ _ k hk, fun x hx => Memory.byte_setBytes_outside _ _ _ x hx, rfl⟩
    rw [step_of_inputs hi]
    exact callerAccess_next (s := s.withInputs rest) hin hc _
  · rw [step_of_inputs hi]
    exact callerAccess_next (s := s.withInputs rest) hin hc _
  · rcases h with ⟨hi, hout⟩ | ⟨hi, hout⟩ <;> rw [step_of_inputs hi]
    · exact callerAccess_outside hout _
    · exact callerAccess_outside hout _

end Sys2Proof.Machine
end

section
/-! PROOFS. What the XOR and the AES operations store under the caller's contract (41_xor.md sections 2 and 3, 42_aes.md
sections 2 to 4), and what the reading stage loads. -/

namespace Sys2Proof.Machine

/-! ### An invocation that completes with `Done` -/

/-- Its destination holds its result, and nothing else changes but the list of completed invocations. -/
theorem exec_done_spec {i : Instr} {s : State} {dst : Nat} (ht : trapOf s.cfg i = none) (hd : destination i = some dst)
    (hr : Disciplined (regions i)) :
    ∃ t, exec i s = .next t ∧ StoresBlock dst (resultOf s.cfg i s.mem) s.mem t.mem ∧ OnlyResult s t
      ∧ t.draws = s.draws ∧ t.ended = { thread := s.thread, instr := i, ending := .done } :: s.ended := by
  refine ⟨_, exec_done ht hd hr, ?_, by simp [OnlyResult], by simp, by simp⟩
  rw [State.retire_mem, State.withMem_mem]
  exact storesBlock_writeBlock _ _ _

theorem storedBlock_eq {i : Instr} {s : State} {dst : Nat} (ht : trapOf s.cfg i = none) (hd : destination i = some dst)
    (hr : Disciplined (regions i)) : storedBlock i dst s = some (resultOf s.cfg i s.mem) := by
  obtain ⟨t, he, hst, -⟩ := exec_done_spec ht hd hr
  simp [storedBlock, he, hst.1]

theorem StoresBlock.byte {dst : Nat} {b : Block} {m m' : Memory} (h : StoresBlock dst b m m') (k : Nat) (hk : k < 16) :
    Memory.byte m' (dst + k) = b[k] := by
  obtain ⟨rfl, -⟩ := h
  rw [Memory.readBlock_getElem _ _ _ hk]

theorem StoresBlock.storesAt {dst : Nat} {b : Block} {m m' : Memory} (h : StoresBlock dst b m m') {value : Nat → Byte}
    (hv : ∀ k (hk : k < 16), b[k] = value k) : StoresAt dst value m m' :=
  ⟨fun k hk => (h.byte k hk).trans (hv k hk), h.2⟩

/-- Storing the same Block at the same place leaves the same bytes. -/
theorem StoresBlock.sameBytes {dst : Nat} {b : Block} {m m1 m2 : Memory} (h1 : StoresBlock dst b m m1)
    (h2 : StoresBlock dst b m m2) : SameBytes m1 m2 := by
  intro a
  by_cases ha : a < dst ∨ dst + 16 ≤ a
  · rw [h1.2 a ha, h2.2 a ha]
  · obtain ⟨k, rfl⟩ : ∃ k, a = dst + k := ⟨a - dst, by omega⟩
    rw [h1.byte k (by omega), h2.byte k (by omega)]

/-- What is known of the state an invocation leaves holds of the state it answers. -/
theorem of_exec {i : Instr} {s t : State} {P : State → Prop} (h : ∃ t, exec i s = .next t ∧ P t)
    (ht : exec i s = .next t) : P t := by
  obtain ⟨u, hu, hp⟩ := h
  cases hu.symm.trans ht
  exact hp

/-! ### The XOR operations -/

theorem XorReady.disciplined {c : Config} {i : Instr} (h : XorReady c i) : Disciplined (regions i) := by
  obtain ⟨-, -, hdis⟩ := h
  exact hdis

/-- Under the caller's contract an XOR operation completes with `Done`. -/
theorem XorReady.exec_spec {i : Instr} {s : State} {dst : Nat} {value : Nat → Byte} (h : XorReady s.cfg i)
    (hc : capable s.cfg i = s.cfg.hasSimd) (hd : destination i = some dst)
    (hv : ∀ k (hk : k < 16), (resultOf s.cfg i s.mem)[k] = value k) :
    ∃ t, exec i s = .next t ∧ StoresAt dst value s.mem t.mem ∧ OnlyResult s t ∧ t.draws = s.draws
      ∧ t.ended = { thread := s.thread, instr := i, ending := .done } :: s.ended := by
  obtain ⟨t, he, hst, hrest⟩ := exec_done_spec (h.trapOf_eq_none hc) hd h.disciplined
  exact ⟨t, he, hst.storesAt hv, hrest⟩

/-- An operation whose regions are some of another's, in any order, may be called wherever the other may. -/
theorem XorReady.of_subperm {c : Config} {i j : Instr} (h : XorReady c i) (hp : (regions j).Subperm (regions i)) :
    XorReady c j := by
  obtain ⟨hs, hacc, hdis⟩ := h
  obtain ⟨rs, hperm, hsub⟩ := hp
  have hsymm : ∀ {r q : Region}, Apart r q → Apart q r := fun hrq => by unfold Apart at hrq ⊢; omega
  exact ⟨hs, fun r hr => hacc r (hsub.subset (hperm.symm.subset hr)),
    (hperm.pairwise_iff hsymm).1 (hdis.sublist hsub)⟩

theorem XorReady.storedBlock_xor2 {a b dst : Nat} {s : State} (h : XorReady s.cfg (.xor2 a b dst)) :
    storedBlock (.xor2 a b dst) dst s = some (xorBlock (Memory.readBlock s.mem a) (Memory.readBlock s.mem b)) := by
  rw [storedBlock_eq (h.trapOf_eq_none rfl) rfl h.disciplined, resultOf_xor2]

theorem XorReady.storedBlock_xor3 {a b c dst : Nat} {s : State} (h : XorReady s.cfg (.xor3 a b c dst)) :
    storedBlock (.xor3 a b c dst) dst s =
      some (xorBlock (xorBlock (Memory.readBlock s.mem a) (Memory.readBlock s.mem b)) (Memory.readBlock s.mem c)) := by
  rw [storedBlock_eq (h.trapOf_eq_none rfl) rfl h.disciplined, resultOf_xor3]

theorem XorReady.storedBlock_xor4 {a b c d dst : Nat} {s : State} (h : XorReady s.cfg (.xor4 a b c d dst)) :
    storedBlock (.xor4 a b c d dst) dst s =
      some (xorBlock (xorBlock (Memory.readBlock s.mem a) (Memory.readBlock s.mem b))
        (xorBlock (Memory.readBlock s.mem c) (Memory.readBlock s.mem d))) := by
  rw [storedBlock_eq (h.trapOf_eq_none rfl) rfl h.disciplined, resultOf_xor4]

/-- Settles O16. -/
theorem xor2StoresTheExclusiveOrOfItsSources : Obligations.Xor2StoresTheExclusiveOrOfItsSources :=
  fun _ _ _ _ h => h.exec_spec rfl rfl fun k hk => by simp

/-- Settles O17. -/
theorem xor3StoresTheExclusiveOrOfItsSources : Obligations.Xor3StoresTheExclusiveOrOfItsSources :=
  fun _ _ _ _ _ h => h.exec_spec rfl rfl fun k hk => by simp

/-- Settles O18. -/
theorem xor4StoresTheExclusiveOrOfItsSources : Obligations.Xor4StoresTheExclusiveOrOfItsSources :=
  fun _ _ _ _ _ _ h => h.exec_spec rfl rfl fun k hk => by simp

/-- Settles O20: each identity is one of exclusive or on Blocks, and the operation on its other side may be
called too. -/
theorem xorIdentitiesHold : Obligations.XorIdentitiesHold := by
  refine ⟨fun s a b dst h => ?_, fun s a b dst h hab => ?_, fun s a b dst h hb => ?_, fun s a b c d dst h => ?_,
    fun s a b c d dst h hab hcd => ?_, fun s a b c dst h hc => ?_⟩
  · have h' : XorReady s.cfg (.xor2 b a dst) := h.of_subperm (List.Perm.swap _ _ _).subperm
    rw [h.storedBlock_xor2, h'.storedBlock_xor2, xorBlock_comm]
  · rw [h.storedBlock_xor2, hab, xorBlock_self]
  · rw [h.storedBlock_xor2, hb, xorBlock_zero]
  · have h' : XorReady s.cfg (.xor4 d c b a dst) := h.of_subperm
      ((List.reverse_perm [sourceRegion a, sourceRegion b, sourceRegion c, sourceRegion d]).append_right
        [destRegion dst]).subperm
    rw [h.storedBlock_xor4, h'.storedBlock_xor4, xorBlock_comm, xorBlock_comm (Memory.readBlock s.mem c),
      xorBlock_comm (Memory.readBlock s.mem a)]
  · rw [h.storedBlock_xor4, hab, hcd, xorBlock_self, xorBlock_self, xorBlock_self]
  · have h' : XorReady s.cfg (.xor2 a b dst) := h.of_subperm (by simp [regions, List.Sublist.subperm])
    rw [h.storedBlock_xor3, h'.storedBlock_xor2, hc, xorBlock_zero]

/-- Settles O21: the stored byte is the exclusive or of the sources' bytes, and exclusive or goes bit by bit. -/
theorem xorLanesAreSingleBits : Obligations.XorLanesAreSingleBits := by
  intro s s' t t' k j hk same left
  refine ⟨fun a b dst a' b' dst' h h' ea eb ht ht' => ?_, fun a b c dst a' b' c' dst' h h' ea eb ec ht ht' => ?_,
    fun a b c d dst a' b' c' d' dst' h h' ea eb ec ed ht ht' => ?_⟩
  · have hst := of_exec (xor2_storesAt h) ht
    have hst' := of_exec (xor2_storesAt h') ht'
    simp only [left, hst.1 k hk, hst'.1 k hk, BitVec.getLsbD_xor]
    rw [ea, eb]
  · have hst := of_exec (xor3_storesAt h) ht
    have hst' := of_exec (xor3_storesAt h') ht'
    simp only [left, hst.1 k hk, hst'.1 k hk, BitVec.getLsbD_xor]
    rw [ea, eb, ec]
  · have hst := of_exec (xor4_storesAt h) ht
    have hst' := of_exec (xor4_storesAt h') ht'
    simp only [left, hst.1 k hk, hst'.1 k hk, BitVec.getLsbD_xor]
    rw [ea, eb, ec, ed]

/-! ### The AES operations -/

/-- The caller's contract rules out a fault. -/
theorem AesReady.trapOf_eq_none {c : Config} {i : Instr} (h : AesReady c i) : trapOf c i = none := by
  obtain ⟨hs, ha, hacc, -⟩ := h
  exact (trapOf_eq_none_iff c i).2 ⟨capable_of_extensions hs ha i, hacc⟩

theorem AesReady.disciplined {c : Config} {i : Instr} (h : AesReady c i) : Disciplined (regions i) := by
  obtain ⟨-, -, -, hdis⟩ := h
  exact hdis

/-- State and key material, being of different lengths, are disjoint where they keep the discipline (R53). -/
theorem state_key_disjoint {state key : Nat} (h : Disciplined [stateRegion state, keyRegion key]) :
    state + 16 ≤ key ∨ key + 48 ≤ state := by
  simpa [Disciplined, Apart, stateRegion, keyRegion] using h

/-- The three key Blocks read from equal key material are equal. -/
theorem readBlock_key_congr {m m' : Memory} {key key' : Nat}
    (h : ∀ k, k < 48 → Memory.byte m (key + k) = Memory.byte m' (key' + k)) (o : Nat) (ho : o + 16 ≤ 48) :
    Memory.readBlock m (key + o) = Memory.readBlock m' (key' + o) := by
  ext1 k hk
  rw [Memory.readBlock_getElem _ _ _ hk, Memory.readBlock_getElem _ _ _ hk, Nat.add_assoc, Nat.add_assoc]
  exact h (o + k) (by omega)

/-- Settles O30. -/
theorem aes4StoresFourRounds : Obligations.Aes4StoresFourRounds := by
  intro state key s h i j l
  have := exec_done_spec h.trapOf_eq_none rfl h.disciplined
  rwa [resultOf_aes4] at this

/-- Settles O31: the schedule, written out, is the one of the round numbers. -/
theorem aes10StoresTenRounds : Obligations.Aes10StoresTenRounds := by
  intro state key s h keyOfRound
  have := exec_done_spec h.trapOf_eq_none rfl h.disciplined
  rw [resultOf_aes10] at this
  simpa [aes10Block, keyOfRound] using this

/-- Settles O32: each Block the function takes is made of bytes the two states agree on. -/
theorem aesResultDependsOnlyOnTheBytesRead : Obligations.AesResultDependsOnlyOnTheBytesRead := by
  intro s s' st key st' key' hst hkey
  have e : Memory.readBlock s.mem st = Memory.readBlock s'.mem st' := by
    ext1 k hk
    rw [Memory.readBlock_getElem _ _ _ hk, Memory.readBlock_getElem _ _ _ hk, hst k hk]
  have e0 := readBlock_key_congr hkey 0 (by omega)
  have e1 := readBlock_key_congr hkey 16 (by omega)
  have e2 := readBlock_key_congr hkey 32 (by omega)
  rw [Nat.add_zero, Nat.add_zero] at e0
  refine ⟨fun h h' => ⟨_, storedBlock_eq h.trapOf_eq_none rfl h.disciplined, ?_⟩,
    fun h h' => ⟨_, storedBlock_eq h.trapOf_eq_none rfl h.disciplined, ?_⟩⟩
  · rw [storedBlock_eq h'.trapOf_eq_none rfl h'.disciplined, resultOf_aes4, resultOf_aes4, e, e0, e1, e2]
  · rw [storedBlock_eq h'.trapOf_eq_none rfl h'.disciplined, resultOf_aes10, resultOf_aes10, e, e0, e1, e2]

/-- Settles O33: operation and fallback store the same Block at the same place. -/
theorem everyFallbackLeavesTheOperationsMemory : Obligations.EveryFallbackLeavesTheOperationsMemory := by
  refine ⟨fun p s t st key hp h ht => ?_, fun p s t st key hp h ht => ?_⟩
  · obtain ⟨hst, -⟩ := of_exec (exec_done_spec h.trapOf_eq_none rfl h.disciplined) ht
    rw [resultOf_aes4] at hst
    exact hst.sameBytes (hp s.mem st key (state_key_disjoint h.disciplined))
  · obtain ⟨hst, -⟩ := of_exec (exec_done_spec h.trapOf_eq_none rfl h.disciplined) ht
    rw [resultOf_aes10] at hst
    exact hst.sameBytes (hp s.mem st key (state_key_disjoint h.disciplined))

/-! ### The reading stage -/

/-- Settles O51: each reading stage, evaluated. -/
theorem readingStageLoadsTheNamedRegisters : Obligations.ReadingStageLoadsTheNamedRegisters := by
  intro m leaf subleaf a b c d dst st key
  refine ⟨rfl, rfl, rfl, rfl, fun i hi => ?_⟩
  obtain rfl | rfl : i = .aes4 st key ∨ i = .aes10 st key := by simpa using hi
  · rfl
  · rfl

/-- Settles O52: the three key Blocks, byte by byte. -/
theorem keyMaterialIsThreeBlocksInARow : Obligations.KeyMaterialIsThreeBlocksInARow := by
  intro m st key i hi
  obtain ⟨-, -, -, -, hload⟩ := readingStageLoadsTheNamedRegisters m 0 0 0 0 0 0 0 st key
  rw [hload i hi]
  exact ⟨_, _, _, rfl, rfl, rfl, fun n hn =>
    ⟨Memory.readBlock_getElem _ _ _ hn, Memory.readBlock_getElem _ _ _ hn, Memory.readBlock_getElem _ _ _ hn⟩⟩

end Sys2Proof.Machine
end

section
/-! PROOFS. The AES round (42_aes.md sections 1 and 4): the field, the four steps, and what a byte of a result depends on. -/

namespace Sys2Proof.Machine

/-! ### The field of 256 elements (R121) -/

theorem xtime_xor (a b : Byte) : xtime (a ^^^ b) = xtime a ^^^ xtime b := by
  have shift : (a ^^^ b) <<< 1 = a <<< 1 ^^^ b <<< 1 := BitVec.shiftLeft_xor_distrib a b 1
  have carry : (if (a ^^^ b).getLsbD 7 then (0x1b : Byte) else 0x00) =
      (if a.getLsbD 7 then 0x1b else 0x00) ^^^ (if b.getLsbD 7 then 0x1b else 0x00) := by
    rw [BitVec.getLsbD_xor]
    cases a.getLsbD 7 <;> cases b.getLsbD 7 <;> rfl
  rw [xtime, xtime, xtime, shift, carry]
  ac_rfl

theorem xtimes_xor (n : Nat) (a b : Byte) : xtimes n (a ^^^ b) = xtimes n a ^^^ xtimes n b := by
  induction n with
  | zero => rfl
  | succ n ih => rw [xtimes, xtimes, xtimes, ih, xtime_xor]

/-- The sum that defines the product, over a list of bit positions and from a value already summed. -/
def gmulFrom (a b : Byte) (js : List Nat) (acc : Byte) : Byte :=
  js.foldl (fun acc j => if b.getLsbD j then acc ^^^ xtimes j a else acc) acc

theorem gmul_eq_gmulFrom (a b : Byte) : gmul a b = gmulFrom a b (List.range 8) 0 := rfl

theorem gmulFrom_cons (a b : Byte) (j : Nat) (js : List Nat) (acc : Byte) :
    gmulFrom a b (j :: js) acc = gmulFrom a b js (if b.getLsbD j then acc ^^^ xtimes j a else acc) := rfl

theorem gmulFrom_xor_left (a b c : Byte) (js : List Nat) (x y : Byte) :
    gmulFrom (a ^^^ b) c js (x ^^^ y) = gmulFrom a c js x ^^^ gmulFrom b c js y := by
  induction js generalizing x y with
  | nil => rfl
  | cons j js ih =>
    rw [gmulFrom_cons, gmulFrom_cons, gmulFrom_cons, ← ih, xtimes_xor]
    cases c.getLsbD j with
    | false => rfl
    | true =>
      simp only [if_true]
      congr 1
      ac_rfl

theorem gmulFrom_xor_right (a b c : Byte) (js : List Nat) (x y : Byte) :
    gmulFrom a (b ^^^ c) js (x ^^^ y) = gmulFrom a b js x ^^^ gmulFrom a c js y := by
  induction js generalizing x y with
  | nil => rfl
  | cons j js ih =>
    rw [gmulFrom_cons, gmulFrom_cons, gmulFrom_cons, ← ih, BitVec.getLsbD_xor]
    congr 1
    cases b.getLsbD j <;> cases c.getLsbD j
    · rfl
    · exact BitVec.xor_assoc _ _ _
    · show x ^^^ y ^^^ xtimes j a = x ^^^ xtimes j a ^^^ y
      ac_rfl
    · show x ^^^ y = x ^^^ xtimes j a ^^^ (y ^^^ xtimes j a)
      calc x ^^^ y = x ^^^ y ^^^ (xtimes j a ^^^ xtimes j a) := by rw [BitVec.xor_self, BitVec.xor_zero]
        _ = x ^^^ xtimes j a ^^^ (y ^^^ xtimes j a) := by ac_rfl

theorem gmul_two (a : Byte) : gmul a 0x02 = mul2 a := BitVec.zero_xor

theorem gmul_three (a : Byte) : gmul a 0x03 = mul3 a := by
  have e : gmul a 0x03 = 0#8 ^^^ a ^^^ xtime a := rfl
  rw [e, BitVec.zero_xor, mul3, BitVec.xor_comm]

/-- Settles O22: multiplication by `x` is linear, and a product is a sum of such multiples. -/
theorem fieldMultiplicationIsBilinear : Obligations.FieldMultiplicationIsBilinear := by
  refine ⟨xtime_xor, fun a b c => ?_, fun a b c => ?_, fun a => ⟨(gmul_two a).symm, (gmul_three a).symm⟩, by decide⟩
  · rw [gmul_eq_gmulFrom, gmul_eq_gmulFrom, gmul_eq_gmulFrom]
    exact gmulFrom_xor_left a b c (List.range 8) 0 0
  · rw [gmul_eq_gmulFrom, gmul_eq_gmulFrom, gmul_eq_gmulFrom]
    exact gmulFrom_xor_right a b c (List.range 8) 0 0

/-! ### Substitution (R122) -/

/-- The affine map of R122. -/
def affine (b : Byte) : Byte :=
  b ^^^ b.rotateLeft 1 ^^^ b.rotateLeft 2 ^^^ b.rotateLeft 3 ^^^ b.rotateLeft 4 ^^^ 0x63

/-- Its inverse. -/
def unaffine (y : Byte) : Byte := y.rotateLeft 1 ^^^ y.rotateLeft 3 ^^^ y.rotateLeft 6 ^^^ 0x05

/-- The field inverse of a byte (zero for zero), read off the table. -/
def fieldInverse (a : Byte) : Byte := unaffine (sbox a)

theorem affine_unaffine : ∀ y : Byte, affine (unaffine y) = y := by decide

theorem gmul_fieldInverse : ∀ a : Byte, a ≠ 0 → gmul a (fieldInverse a) = 1 := by decide

theorem fieldInverse_fieldInverse : ∀ a : Byte, fieldInverse (fieldInverse a) = a := by decide

theorem sbox_eq_affine (a : Byte) : sbox a = affine (fieldInverse a) := (affine_unaffine _).symm

theorem sbox_bijective : Function.Bijective sbox := by
  have hinv : Function.Involutive fieldInverse := fieldInverse_fieldInverse
  refine ⟨fun a b h => hinv.injective (congrArg unaffine h), fun y => ?_⟩
  obtain ⟨a, ha⟩ := hinv.surjective (unaffine y)
  exact ⟨a, by rw [sbox_eq_affine, ha, affine_unaffine]⟩

/-- Settles O23: the table, through the affine map, is the field inverse, which undoes itself. -/
theorem substitutionIsInverseThenAffine : Obligations.SubstitutionIsInverseThenAffine := by
  refine ⟨fun a => ⟨fieldInverse a, ?_, gmul_fieldInverse a, sbox_eq_affine a⟩, fun _ _ h => sbox_bijective.1 h,
    subBytes_getElem⟩
  rintro rfl
  decide

/-! ### Row rotation (R123) -/

theorem shiftRowsIndex_eq (r c : Nat) (hr : r < 4) : shiftRowsIndex (r + 4 * c) = r + 4 * ((c + r) % 4) := by
  unfold shiftRowsIndex
  omega

theorem shiftRowsIndex_four_times (k : Nat) (hk : k < 16) :
    shiftRowsIndex (shiftRowsIndex (shiftRowsIndex (shiftRowsIndex k))) = k := by
  unfold shiftRowsIndex
  omega

/-- Settles O24: the index of a byte in row and column, and that the substitution does not look at places. -/
theorem rowRotationMovesRowsLeft : Obligations.RowRotationMovesRowsLeft := by
  refine ⟨fun b r c hr hc => ?_, by decide, fun b => ?_⟩
  · simp only [shiftRows_getElem, shiftRowsIndex_eq r c hr]
  · ext1 k hk
    simp

/-! ### Column mixing (R124) -/

theorem mixColumns_column (b : Block) (c r : Nat) (hc : c < 4) (hr : r < 4) :
    (mixColumns b)[4 * c + r] = mixColumn r b[4 * c] b[4 * c + 1] b[4 * c + 2] b[4 * c + 3] := by
  have hmod : (4 * c + r) % 4 = r := by omega
  have hdiv : (4 * c + r) / 4 = c := by omega
  simp only [mixColumns_getElem, hmod, hdiv]

/-- A column of equal bytes is unchanged: its coefficients sum to one. -/
theorem mixColumn_const (r : Nat) (hr : r < 4) (v : Byte) : mixColumn r v v v v = v := by
  obtain rfl | rfl | rfl | rfl : r = 0 ∨ r = 1 ∨ r = 2 ∨ r = 3 := by omega
  all_goals simp [mixColumn, mul2, mul3, BitVec.xor_comm]

/-- Settles O25: the four bytes of a column, by their row. -/
theorem columnMixingMixesEachColumn : Obligations.ColumnMixingMixesEachColumn := by
  refine ⟨fun b c hc => ?_, fun b v c hc h0 h1 h2 h3 => ?_, by decide⟩
  · exact ⟨mixColumns_column b c 0 hc (by omega), mixColumns_column b c 1 hc (by omega),
      mixColumns_column b c 2 hc (by omega), mixColumns_column b c 3 hc (by omega)⟩
  · have same (r : Nat) (hr : r < 4) : (mixColumns b)[4 * c + r] = v := by
      rw [mixColumns_column b c r hc hr, h0, h1, h2, h3, mixColumn_const r hr]
    exact ⟨same 0 (by omega), same 1 (by omega), same 2 (by omega), same 3 (by omega)⟩

/-! ### The round and the operations are bijections (R126, R133) -/

theorem byte_xor_left_comm (x y z : Byte) : x ^^^ (y ^^^ z) = y ^^^ (x ^^^ z) := by ac_rfl

/-- Mixing a column twice leaves each byte but for four times its difference from the byte two rows on. -/
def mixTwice (a b : Byte) : Byte := a ^^^ xtime (xtime (a ^^^ b))

theorem mixColumn_mixColumn (a0 a1 a2 a3 : Byte) (r : Nat) (hr : r < 4) :
    mixColumn r (mixColumn 0 a0 a1 a2 a3) (mixColumn 1 a0 a1 a2 a3) (mixColumn 2 a0 a1 a2 a3) (mixColumn 3 a0 a1 a2 a3)
      = mixTwice ([a0, a1, a2, a3].getD r 0) ([a2, a3, a0, a1].getD r 0) := by
  obtain rfl | rfl | rfl | rfl : r = 0 ∨ r = 1 ∨ r = 2 ∨ r = 3 := by omega
  all_goals
    simp [mixColumn, mixTwice, mul2, mul3, xtime_xor, BitVec.xor_assoc, BitVec.xor_comm, byte_xor_left_comm]

/-- Doing that twice leaves each byte: the two differences cancel. -/
theorem mixTwice_mixTwice (a b : Byte) : mixTwice (mixTwice a b) (mixTwice b a) = a := by
  have hdiff : mixTwice a b ^^^ mixTwice b a = a ^^^ b := by
    simp [mixTwice, BitVec.xor_assoc, BitVec.xor_comm]
  rw [mixTwice, hdiff, mixTwice, BitVec.xor_assoc, BitVec.xor_self, BitVec.xor_zero]

/-- Settles O26: the round, evaluated. -/
theorem publishedRoundsAreReproduced : Obligations.PublishedRoundsAreReproduced := by
  unfold Obligations.PublishedRoundsAreReproduced
  decide

theorem mixColumns_twice (b : Block) (c r : Nat) (hc : c < 4) (hr : r < 4) :
    (mixColumns (mixColumns b))[4 * c + r] = mixTwice b[4 * c + r] b[4 * c + (r + 2) % 4] := by
  obtain ⟨m0, m1, m2, m3⟩ : _ ∧ _ ∧ _ ∧ _ := ⟨mixColumns_column b c 0 hc (by omega),
    mixColumns_column b c 1 hc (by omega), mixColumns_column b c 2 hc (by omega), mixColumns_column b c 3 hc (by omega)⟩
  simp only [Nat.add_zero] at m0
  rw [mixColumns_column _ c r hc hr, m0, m1, m2, m3, mixColumn_mixColumn _ _ _ _ r hr]
  obtain rfl | rfl | rfl | rfl : r = 0 ∨ r = 1 ∨ r = 2 ∨ r = 3 := by omega
  all_goals rfl

theorem mixColumns_four_times (b : Block) : mixColumns (mixColumns (mixColumns (mixColumns b))) = b := by
  ext1 k hk
  have hr : k % 4 < 4 := by omega
  have hrow : (k % 4 + 2) % 4 < 4 := by omega
  have hback : ((k % 4 + 2) % 4 + 2) % 4 = k % 4 := by omega
  have hcol : k / 4 < 4 := by omega
  have e : 4 * (k / 4) + k % 4 = k := by omega
  have four := mixColumns_twice (mixColumns (mixColumns b)) (k / 4) (k % 4) hcol hr
  rw [mixColumns_twice b _ _ hcol hr, mixColumns_twice b _ _ hcol hrow] at four
  simpa only [hback, mixTwice_mixTwice, e] using four

/-- What gives every Block back when done four times is a bijection. -/
theorem bijective_of_four_times {f : Block → Block} (h : ∀ b, f (f (f (f b))) = b) : Function.Bijective f :=
  Function.bijective_iff_has_inverse.2 ⟨f ∘ f ∘ f, h, h⟩

theorem mixColumns_bijective : Function.Bijective mixColumns := bijective_of_four_times mixColumns_four_times

theorem shiftRows_bijective : Function.Bijective shiftRows :=
  bijective_of_four_times fun b => by
    ext1 k hk
    simp only [shiftRows_getElem, shiftRowsIndex_four_times k hk]

theorem subBytes_bijective : Function.Bijective subBytes := by
  obtain ⟨inv, hl, hr⟩ := Function.bijective_iff_has_inverse.1 sbox_bijective
  refine Function.bijective_iff_has_inverse.2 ⟨fun b => b.map inv, fun b => ?_, fun b => ?_⟩
  · ext1 k hk
    rw [Vector.getElem_map, subBytes_getElem, hl]
  · ext1 k hk
    rw [subBytes_getElem, Vector.getElem_map, hr]

theorem addRoundKey_bijective (k : Block) : Function.Bijective fun b => addRoundKey b k :=
  Function.Involutive.bijective fun b => by
    rw [addRoundKey, addRoundKey, xorBlock_assoc, xorBlock_self, xorBlock_zero]

theorem aesRound_bijective (k : Block) : Function.Bijective fun st => aesRound st k :=
  (addRoundKey_bijective k).comp (mixColumns_bijective.comp (shiftRows_bijective.comp subBytes_bijective))

/-- Settles O27: a round is four bijections one after another, and an operation is rounds one after another. -/
theorem roundAndOperationsAreBijections : Obligations.RoundAndOperationsAreBijections := by
  have r := aesRound_bijective
  refine ⟨r, fun i j l => ?_, fun i j l => ?_⟩
  · exact (r zeroBlock).comp ((r l).comp ((r i).comp (r j)))
  · exact (r i).comp ((r l).comp ((r j).comp ((r i).comp ((r l).comp ((r j).comp ((r i).comp ((r l).comp
      ((r j).comp (r i)))))))))

/-! ### What a byte of a result depends on (R134, R137) -/

/-- A byte of a round: its column, gathered by the row rotation, substituted and mixed; and its byte of the key. -/
theorem aesRound_getElem (s k : Block) (n : Nat) (h : n < 16) :
    (aesRound s k)[n] = mixColumn (n % 4) (sbox s[0 + 4 * ((n / 4 + 0) % 4)]) (sbox s[1 + 4 * ((n / 4 + 1) % 4)])
      (sbox s[2 + 4 * ((n / 4 + 2) % 4)]) (sbox s[3 + 4 * ((n / 4 + 3) % 4)]) ^^^ k[n] := by
  have i0 : shiftRowsIndex (4 * (n / 4)) = 0 + 4 * ((n / 4 + 0) % 4) := by
    rw [← shiftRowsIndex_eq 0 _ (by omega), Nat.zero_add]
  have i (r : Nat) (hr : r < 4) : shiftRowsIndex (4 * (n / 4) + r) = r + 4 * ((n / 4 + r) % 4) := by
    rw [← shiftRowsIndex_eq r _ hr, Nat.add_comm]
  simp only [aesRound, addRoundKey, xorBlock_getElem, mixColumns_getElem, shiftRows_getElem, subBytes_getElem, i0,
    i 1 (by omega), i 2 (by omega), i 3 (by omega)]

/-- Settles O28: the four state bytes of `aesRound_getElem`. -/
theorem roundByteDependsOnFourStateBytes : Obligations.RoundByteDependsOnFourStateBytes := by
  intro s s' k k' n hn hs hk
  rw [aesRound_getElem, aesRound_getElem, hs 0 (by omega), hs 1 (by omega), hs 2 (by omega), hs 3 (by omega), hk]

/-- Settles O29: the third round's key changes one byte of what the last round sees, and the row rotation carries that
byte to one column. -/
theorem oneByteOfTheThirdKeyChangesOneColumn : Obligations.OneByteOfTheThirdKeyChangesOneColumn := by
  intro s i j l l' n hn hl
  refine ⟨(n / 4 + 4 - n % 4) % 4, by omega, fun k hk hcol => ?_⟩
  refine roundByteDependsOnFourStateBytes _ _ _ _ k hk (fun r hr => ?_) rfl
  have hne : r + 4 * ((k / 4 + r) % 4) ≠ n := by
    obtain rfl | rfl | rfl | rfl : r = 0 ∨ r = 1 ∨ r = 2 ∨ r = 3 := by omega
    all_goals omega
  exact roundByteDependsOnFourStateBytes _ _ _ _ _ (by omega) (fun _ _ => rfl) (hl _ (by omega) hne)

end Sys2Proof.Machine
end

section
/-! PROOFS. Invocations that keep the discipline and do not conflict commute, and overlapping in time they leave what one
after the other leaves (20_memory.md R59). What such an invocation does is one function of memory, one list of new
faults and one list of new completions, none of which depends on the rest of the state. -/

namespace Sys2Proof.Machine

/-! ### What a disciplined invocation does, as functions -/

/-- Memory after an invocation that keeps the discipline. -/
def memoryAfter (c : Config) (i : Instr) (m : Memory) : Memory :=
  match trapOf c i, destination i with
  | none, some dst => Memory.writeBlock m dst (resultOf c i m)
  | _, _ => m

/-- The outcome of an invocation that keeps the discipline and does not fault. -/
def endingOf (c : Config) : Instr → Ending
  | .queryCPUID leaf subleaf => .returned (cpuidTable c leaf subleaf)
  | _ => .done

/-- The completions it adds: its own, unless it faults. -/
def endedBy (c : Config) (t : ThreadId) (i : Instr) : List Ended :=
  match trapOf c i with
  | some _ => []
  | none => [{ thread := t, instr := i, ending := endingOf c i }]

/-- The faults it adds. -/
def faultsBy (c : Config) (t : ThreadId) (i : Instr) : List FaultEntry :=
  match trapOf c i with
  | some p => [{ thread := t, issued := .invocation i, cause := p.cause, info := p.info }]
  | none => []

/-- The state after an invocation on its running thread, if it keeps the discipline. -/
def afterOf (i : Instr) (s : State) : State :=
  { s with
    mem := memoryAfter s.cfg i s.mem
    ended := endedBy s.cfg s.thread i ++ s.ended
    faults := faultsBy s.cfg s.thread i ++ s.faults }

@[simp] theorem afterOf_cfg (i : Instr) (s : State) : (afterOf i s).cfg = s.cfg := rfl
@[simp] theorem afterOf_mem (i : Instr) (s : State) : (afterOf i s).mem = memoryAfter s.cfg i s.mem := rfl
@[simp] theorem afterOf_active (i : Instr) (s : State) : (afterOf i s).active = s.active := rfl
@[simp] theorem afterOf_ended (i : Instr) (s : State) :
    (afterOf i s).ended = endedBy s.cfg s.thread i ++ s.ended := rfl
@[simp] theorem afterOf_faults (i : Instr) (s : State) :
    (afterOf i s).faults = faultsBy s.cfg s.thread i ++ s.faults := rfl
@[simp] theorem afterOf_inputs (i : Instr) (s : State) : (afterOf i s).inputs = s.inputs := rfl

theorem endingOf_of_no_destination {i : Instr} (h : destination i = none) (c : Config) (m : Memory) :
    endingOf c i = .returned (wordsOf c i m) := by
  cases i with
  | queryCPUID leaf subleaf => rw [wordsOf_queryCPUID]; rfl
  | _ => cases h

theorem endingOf_of_destination {i : Instr} {dst : Nat} (h : destination i = some dst) (c : Config) :
    endingOf c i = .done := by
  cases i with
  | queryCPUID leaf subleaf => cases h
  | _ => rfl

theorem faultsBy_of_no_trap {c : Config} {i : Instr} (h : trapOf c i = none) (t : ThreadId) : faultsBy c t i = [] := by
  simp [faultsBy, h]

theorem thread_of_mem_faultsBy {c : Config} {t : ThreadId} {i : Instr} {e : FaultEntry} (h : e ∈ faultsBy c t i) :
    e.thread = t := by
  cases hp : trapOf c i with
  | none => simp [faultsBy, hp] at h
  | some p =>
    obtain rfl : e = ⟨t, .invocation i, p.cause, p.info⟩ := by simpa [faultsBy, hp] using h
    rfl

/-- What these functions say is what `exec` does. -/
theorem exec_eq_afterOf {i : Instr} (hdis : Disciplined (regions i)) (s : State) :
    exec i s = .next (afterOf i s) := by
  cases ht : trapOf s.cfg i with
  | some p =>
    rw [exec_of_trap ht]
    simp [afterOf, memoryAfter, endedBy, faultsBy, ht, takeFault]
  | none =>
    cases hd : destination i with
    | none =>
      rw [exec_returned ht hd]
      simp [afterOf, memoryAfter, endedBy, faultsBy, ht, hd, endingOf_of_no_destination hd s.cfg s.mem, State.retire]
    | some dst =>
      rw [exec_done ht hd hdis]
      simp [afterOf, memoryAfter, endedBy, faultsBy, ht, hd, endingOf_of_destination hd, State.retire, State.withMem]

theorem conclude_eq_afterOf {i : Instr} {s : State} (ht : trapOf s.cfg i = none) (hdis : Disciplined (regions i)) :
    conclude i (computeOf s.cfg i) (loadOf i s.mem) s = afterOf i s := by
  have h := (exec_of_no_trap ht).symm.trans (exec_eq_afterOf hdis s)
  rwa [Host.Outcome.next.injEq] at h

/-! ### Two of them on one memory -/

/-- An invocation leaves memory as it is, or writes its result to its destination. -/
theorem memoryAfter_cases (c : Config) (i : Instr) :
    (∀ m, memoryAfter c i m = m) ∨
      ∃ dst, destination i = some dst ∧ ∀ m, memoryAfter c i m = Memory.writeBlock m dst (resultOf c i m) := by
  cases ht : trapOf c i with
  | some p => exact .inl fun m => by simp [memoryAfter, ht]
  | none =>
    cases hd : destination i with
    | none => exact .inl fun m => by simp [memoryAfter, ht, hd]
    | some dst => exact .inr ⟨dst, rfl, fun m => by simp [memoryAfter, ht, hd]⟩

/-- What one invocation writes, another that does not conflict with it does not read. -/
theorem loadOf_memoryAfter {i : Instr} {f : InFlight} (h : NoConflict (regions i) [f]) (c : Config) (m : Memory) :
    loadOf f.instr (memoryAfter c i m) = loadOf f.instr m := by
  obtain hsame | ⟨dst, hd, hw⟩ := memoryAfter_cases c i
  · rw [hsame]
  · rw [hw]
    refine loadOf_congr _ _ _ fun q hq _ k hk => Memory.byte_writeBlock_outside _ _ _ _ ?_
    have := h.destination_disjoint hd hq
    omega

/-- Two Blocks that do not meet may be written in either order. -/
theorem sameBytes_writeBlock_comm (m : Memory) {p q : Nat} (a b : Block) (h : p + 16 ≤ q ∨ q + 16 ≤ p) :
    SameBytes (Memory.writeBlock (Memory.writeBlock m p a) q b) (Memory.writeBlock (Memory.writeBlock m q b) p a) := by
  intro x
  by_cases hp : x < p ∨ p + 16 ≤ x
  · rw [Memory.byte_writeBlock_outside _ p _ _ hp]
    by_cases hq : x < q ∨ q + 16 ≤ x
    · rw [Memory.byte_writeBlock_outside _ q _ _ hq, Memory.byte_writeBlock_outside _ q _ _ hq,
        Memory.byte_writeBlock_outside _ p _ _ hp]
    · obtain ⟨k, rfl⟩ : ∃ k, x = q + k := ⟨x - q, by omega⟩
      rw [Memory.byte_writeBlock_inside _ _ _ k (by omega), Memory.byte_writeBlock_inside _ _ _ k (by omega)]
  · obtain ⟨k, rfl⟩ : ∃ k, x = p + k := ⟨x - p, by omega⟩
    rw [Memory.byte_writeBlock_outside _ q _ _ (by omega), Memory.byte_writeBlock_inside _ _ _ k (by omega),
      Memory.byte_writeBlock_inside _ _ _ k (by omega)]

theorem memoryAfter_comm {f g : InFlight} (h : NoConflict (regions f.instr) [g]) (c : Config) (m : Memory) :
    SameBytes (memoryAfter c g.instr (memoryAfter c f.instr m)) (memoryAfter c f.instr (memoryAfter c g.instr m)) := by
  have hg : resultOf c g.instr (memoryAfter c f.instr m) = resultOf c g.instr m := by
    rw [resultOf, resultOf, loadOf_memoryAfter h]
  have hf : resultOf c f.instr (memoryAfter c g.instr m) = resultOf c f.instr m := by
    rw [resultOf, resultOf, loadOf_memoryAfter (noConflict_symm h)]
  obtain hsame | ⟨p, hp, hpw⟩ := memoryAfter_cases c f.instr
  · rw [hsame, hsame]
    exact fun _ => rfl
  obtain hsame | ⟨q, hq, hqw⟩ := memoryAfter_cases c g.instr
  · rw [hsame, hsame]
    exact fun _ => rfl
  rw [hqw, hpw (memoryAfter c g.instr m), hg, hf, hpw, hqw]
  exact sameBytes_writeBlock_comm m _ _ (h.destinations_disjoint hp hq)

/-! ### One call after another -/

/-- The thread may issue the descriptor, which stands for an invocation that keeps the discipline and meets nothing in
flight. -/
structure Issuable (s : State) (t : ThreadId) (d : Descriptor) (i : Instr) : Prop where
  may : MayIssue s t
  decodes : decode d = .ok i
  disciplined : Disciplined (regions i)
  clear : NoConflict (regions i) s.active

theorem step_call {s : State} {t : ThreadId} {d : Descriptor} {rest : List Input} {i : Instr}
    (hi : s.inputs = .call t d :: rest) (h : Issuable s t d i) :
    step s = .next (afterOf i ((s.withInputs rest).onThread t)) :=
  (stepRunsTheDecodedInvocation s t d rest i hi h.may h.decodes (.inr h.clear)).trans (exec_eq_afterOf h.disciplined _)

/-- What one thread's invocation does stops no other thread. -/
theorem MayIssue.afterOf {s : State} {u : ThreadId} (hm : MayIssue s u) {t : ThreadId} (htu : t ≠ u) (i : Instr) :
    MayIssue (afterOf i (s.onThread t)) u := by
  obtain ⟨hs, hb⟩ := hm
  refine ⟨(stopped_eq_false_iff _ _).2 fun e he => ?_, hb⟩
  rcases List.mem_append.1 he with he | he
  · rwa [thread_of_mem_faultsBy he]
  · exact (stopped_eq_false_iff s u).1 hs e he

/-- Two threads issue one after the other. -/
theorem run_call_call {s : State} {t u : ThreadId} {d e : Descriptor} {i j : Instr} (htu : t ≠ u)
    (hi : Issuable s t d i) (hj : Issuable s u e j) :
    ∃ v, Sys2Proof.core.run 2 { s with inputs := [.call t d, .call u e] } = .next v
      ∧ v.mem = memoryAfter s.cfg j (memoryAfter s.cfg i s.mem)
      ∧ v.ended = endedBy s.cfg u j ++ (endedBy s.cfg t i ++ s.ended)
      ∧ v.faults = faultsBy s.cfg u j ++ (faultsBy s.cfg t i ++ s.faults)
      ∧ v.active = s.active := by
  have h1 := step_call (s := s.withInputs [.call t d, .call u e]) rfl ⟨hi.may, hi.decodes, hi.disciplined, hi.clear⟩
  have hm : MayIssue (afterOf i ((s.withInputs [.call u e]).onThread t)) u :=
    MayIssue.afterOf (s := s.withInputs [.call u e]) hj.may htu i
  have h2 := step_call (s := afterOf i ((s.withInputs [.call u e]).onThread t)) rfl
    ⟨hm, hj.decodes, hj.disciplined, hj.clear⟩
  exact ⟨_, run_succ.2 ⟨_, h1, run_succ.2 ⟨_, h2, run_zero.2 rfl⟩⟩, by simp, by simp, by simp, by simp⟩

/-- Settles O56: run one after the other the two add the same completions and faults, and write Blocks that do not meet
and that neither reads of the other. -/
theorem nonConflictingInvocationsCommute : Obligations.NonConflictingInvocationsCommute := by
  intro s t u d e i j htu hmt hmu hd he hi hj hij hci hcj
  obtain ⟨v, hv, vmem, vended, vfaults, vactive⟩ := run_call_call htu ⟨hmt, hd, hi, hci⟩ ⟨hmu, he, hj, hcj⟩
  obtain ⟨w, hw, wmem, wended, wfaults, wactive⟩ := run_call_call htu.symm ⟨hmu, he, hj, hcj⟩ ⟨hmt, hd, hi, hci⟩
  refine ⟨v, w, hv, hw, ?_, ?_, ?_, vactive, wactive⟩
  · rw [vmem, wmem]
    exact memoryAfter_comm (f := ⟨t, i, Regs.empty⟩) hij s.cfg s.mem
  · rw [vended, wended]
    exact List.perm_append_comm_assoc _ _ _
  · rw [vfaults, wfaults]
    exact List.perm_append_comm_assoc _ _ _

/-! ### Two invocations that overlap in time -/

/-- One after the other, two threads put invocations that raise no fault in flight. -/
theorem run_start_start {s : State} {t u : ThreadId} {d e : Descriptor} {i j : Instr} (htu : t ≠ u)
    (hi : Issuable s t d i) (hj : Issuable s u e j) (hti : trapOf s.cfg i = none) (htj : trapOf s.cfg j = none)
    (hij : NoConflict (regions i) [⟨u, j, Regs.empty⟩]) {is : List Input} {n : Nat} {w : State}
    (hw : Sys2Proof.core.run n (((s.withInputs is).started t i).started u j) = .next w) :
    Sys2Proof.core.run (n + 2) { s with inputs := .start t d :: .start u e :: is } = .next w := by
  have hclear : NoConflict (regions j) (s.started t i).active := fun f hf => by
    rcases List.mem_append.1 hf with hf | hf
    · exact hj.clear f hf
    · exact noConflict_symm (f := ⟨t, i, loadOf i s.mem⟩) (g := ⟨u, j, Regs.empty⟩) hij f hf
  have h1 := step_start (s := s.withInputs (.start t d :: .start u e :: is)) rfl hi.may hi.decodes hti hi.clear
  have h2 := step_start (s := (s.withInputs (.start u e :: is)).started t i) rfl
    (MayIssue.started (s := s.withInputs (.start u e :: is)) hj.may htu i) hj.decodes htj hclear
  exact run_succ.2 ⟨_, h1, run_succ.2 ⟨_, h2, hw⟩⟩

/-- An invocation in flight beside others: its checks passed, it keeps the discipline, it holds what it would read now,
and no other is its thread's. -/
structure Due (c : Config) (m : Memory) (fs : List InFlight) (f : InFlight) : Prop where
  passes : trapOf c f.instr = none
  disciplined : Disciplined (regions f.instr)
  loaded : f.regs = loadOf f.instr m
  only : ∀ x ∈ fs, x.thread ≠ f.thread

theorem find_thread_append {fs gs : List InFlight} {t : ThreadId} (h : ∀ x ∈ fs, x.thread ≠ t) :
    (fs ++ gs).find? (fun x => x.thread == t) = gs.find? fun x => x.thread == t := by
  rw [List.find?_append, List.find?_eq_none.2 (by simpa using h), Option.none_or]

theorem eraseP_thread_append {fs gs : List InFlight} {t : ThreadId} (h : ∀ x ∈ fs, x.thread ≠ t) :
    ((fs ++ gs).eraseP fun x => x.thread == t) = fs ++ gs.eraseP fun x => x.thread == t :=
  List.eraseP_append_right _ (by simpa using h)

/-- Finishing an invocation that holds what it would read now, among those that began after the others. -/
theorem step_finish {s : State} {fs gs : List InFlight} {f : InFlight} {rest : List Input} (h : Due s.cfg s.mem fs f)
    (hi : s.inputs = .finish f.thread :: rest) (hact : s.active = fs ++ gs)
    (hfind : gs.find? (fun x => x.thread == f.thread) = some f) :
    ∃ t, step s = .next t ∧ t.cfg = s.cfg ∧ t.mem = memoryAfter s.cfg f.instr s.mem
      ∧ t.ended = endedBy s.cfg f.thread f.instr ++ s.ended ∧ t.faults = s.faults
      ∧ t.active = fs ++ gs.eraseP (fun x => x.thread == f.thread) ∧ t.inputs = rest := by
  have hfind' : s.active.find? (fun x => x.thread == f.thread) = some f := by
    rw [hact, find_thread_append h.only, hfind]
  have hconclude := conclude_eq_afterOf
    (s := ((s.withInputs rest).withActive (s.active.eraseP fun x => x.thread == f.thread)).onThread f.thread)
    h.passes h.disciplined
  have hstep := (step_of_inputs hi).trans (finish_of_find (s := s.withInputs rest) hfind')
  rw [h.loaded] at hstep
  refine ⟨_, hstep.trans (congrArg _ hconclude), rfl, rfl, rfl, ?_, ?_, rfl⟩
  · simp [faultsBy_of_no_trap h.passes]
  · rw [← eraseP_thread_append h.only, ← hact]
    rfl

/-- Two invocations that began before anything was written finish one after the other, in whichever order they began. -/
theorem run_finish_finish {s : State} {fs gs : List InFlight} {f g : InFlight} (hf : Due s.cfg s.mem fs f)
    (hg : Due s.cfg s.mem fs g) (hne : f.thread ≠ g.thread) (hc : NoConflict (regions f.instr) [g])
    (hact : s.active = fs ++ gs) (hgs : gs = [f, g] ∨ gs = [g, f])
    (hi : s.inputs = [.finish f.thread, .finish g.thread]) :
    ∃ w, Sys2Proof.core.run 2 s = .next w
      ∧ w.mem = memoryAfter s.cfg g.instr (memoryAfter s.cfg f.instr s.mem)
      ∧ w.ended = endedBy s.cfg g.thread g.instr ++ (endedBy s.cfg f.thread f.instr ++ s.ended)
      ∧ w.faults = s.faults ∧ w.active = fs := by
  have hfind : gs.find? (fun x => x.thread == f.thread) = some f := by
    rcases hgs with rfl | rfl <;> simp [hne.symm]
  have herase : (gs.eraseP fun x => x.thread == f.thread) = [g] := by
    rcases hgs with rfl | rfl <;> simp [hne.symm]
  obtain ⟨s1, h1, hcfg, hmem, hended, hfaults, hact1, hi1⟩ := step_finish hf hi hact hfind
  have hg1 : Due s1.cfg s1.mem fs g := by
    rw [hcfg, hmem]
    exact { hg with loaded := hg.loaded.trans (loadOf_memoryAfter hc s.cfg s.mem).symm }
  rw [herase] at hact1
  obtain ⟨s2, h2, -, hmem2, hended2, hfaults2, hact2, -⟩ := step_finish hg1 hi1 hact1 (by simp)
  refine ⟨s2, run_succ.2 ⟨s1, h1, run_succ.2 ⟨s2, h2, run_zero.2 rfl⟩⟩, ?_, ?_, hfaults2.trans hfaults, ?_⟩
  · rw [hmem2, hcfg, hmem]
  · rw [hended2, hcfg, hended]
  · simpa using hact2

/-- Settles O57: each ends on what it read at the start, which the other did not write, so that the two orders of ending
leave what the two orders of running one after the other leave. -/
theorem overlapEndsAsOneAfterTheOther : Obligations.OverlapEndsAsOneAfterTheOther := by
  intro s t u d e i j htu hmt hmu hd he hti htj hi hj hij hci hcj
  have hit : Issuable s t d i := ⟨hmt, hd, hi, hci⟩
  have hju : Issuable s u e j := ⟨hmu, he, hj, hcj⟩
  have hf : Due s.cfg s.mem s.active ⟨t, i, loadOf i s.mem⟩ := ⟨hti, hi, rfl, (busy_eq_false_iff s t).1 hmt.2⟩
  have hg : Due s.cfg s.mem s.active ⟨u, j, loadOf j s.mem⟩ := ⟨htj, hj, rfl, (busy_eq_false_iff s u).1 hmu.2⟩
  obtain ⟨v, hv, vmem, vended, vfaults, vactive⟩ := run_call_call htu hit hju
  have hfg : NoConflict (regions i) [⟨u, j, loadOf j s.mem⟩] := hij.of_instr_eq rfl
  have hgf : NoConflict (regions j) [⟨t, i, loadOf i s.mem⟩] :=
    noConflict_symm (f := ⟨t, i, loadOf i s.mem⟩) (g := ⟨u, j, loadOf j s.mem⟩) hfg
  obtain ⟨w, hw, wmem, wended, wfaults, wactive⟩ := run_finish_finish
    (s := ((s.withInputs [.finish t, .finish u]).started t i).started u j)
    hf hg htu hfg (List.append_assoc _ _ _) (.inl rfl) rfl
  obtain ⟨x, hx, xmem, xended, xfaults, xactive⟩ := run_finish_finish
    (s := ((s.withInputs [.finish u, .finish t]).started t i).started u j)
    hg hf htu.symm hgf (List.append_assoc _ _ _) (.inr rfl) rfl
  refine ⟨v, w, x, hv, run_start_start htu hit hju hti htj hij hw, run_start_start htu hit hju hti htj hij hx,
    ?_, ?_, ?_, ?_, ?_, wfaults, xfaults, vactive, wactive, xactive⟩
  · rw [vmem, wmem]
    exact fun _ => rfl
  · rw [vmem, xmem]
    exact memoryAfter_comm (f := ⟨t, i, Regs.empty⟩) hij s.cfg s.mem
  · rw [vended, wended]
    exact List.Perm.refl _
  · rw [vended, xended]
    exact List.perm_append_comm_assoc _ _ _
  · rw [vfaults, faultsBy_of_no_trap hti, faultsBy_of_no_trap htj]
    rfl

end Sys2Proof.Machine
end

section
/-! PROOFS. The textual form of an invocation, written and read back (30_encoding.md R71): its digits, its numbers, its
pieces between commas, and the mnemonic before the parenthesis. -/

namespace Sys2Proof.Machine

/-! ### Numbers -/

/-- The characters of a number's text. -/
def numberChars : List Char := "0123456789abcdefx".toList

theorem hexDigit_mem_numberChars : ∀ v < 16, hexDigit v ∈ numberChars := by decide

theorem digitValue_hexDigit : ∀ v < 16, digitValue 16 (hexDigit v) = some v := by decide

theorem mem_hexDigits {n v : Nat} {ch : Char} (h : ch ∈ hexDigits n v) : ch ∈ numberChars := by
  induction n generalizing v with
  | zero => cases h
  | succ n ih =>
    rcases List.mem_append.1 h with h | h
    · exact ih h
    · rw [List.mem_singleton.1 h]
      exact hexDigit_mem_numberChars _ (Nat.mod_lt _ (by omega))

theorem digitsValue_append (base acc : Nat) (xs : List Char) (ch : Char) :
    digitsValue base acc (xs ++ [ch]) =
      (digitsValue base acc xs).bind fun a => (digitValue base ch).map fun v => base * a + v := by
  induction xs generalizing acc with
  | nil => cases h : digitValue base ch <;> simp [digitsValue, h]
  | cons x xs ih => cases h : digitValue base x <;> simp [digitsValue, h, ih]

/-- The last digits of a number, read back, are the number modulo the power they span. -/
theorem digitsValue_hexDigits (n v : Nat) : digitsValue 16 0 (hexDigits n v) = some (v % 16 ^ n) := by
  induction n generalizing v with
  | zero => simp [hexDigits, digitsValue, Nat.mod_one]
  | succ n ih =>
    rw [hexDigits, digitsValue_append, ih, digitValue_hexDigit _ (Nat.mod_lt _ (by omega)), Nat.pow_succ,
      Nat.mul_comm (16 ^ n) 16, Nat.mod_mul, Nat.add_comm]
    rfl

theorem readNumber_numberText {v : Nat} (h : v < 2 ^ 64) : readNumber (numberText v) = some v := by
  have hread := digitsValue_hexDigits 16 v
  rw [Nat.mod_eq_of_lt (Nat.lt_of_lt_of_eq h (by norm_num))] at hread
  rw [numberText]
  cases hd : hexDigits 16 v with
  | nil => simp [hexDigits] at hd
  | cons ch rest => rwa [hd] at hread

theorem mem_numberText {v : Nat} {ch : Char} (h : ch ∈ numberText v) : ch ∈ numberChars := by
  rcases List.mem_cons.1 h with rfl | h
  · decide
  · rcases List.mem_cons.1 h with rfl | h
    · decide
    · exact mem_hexDigits h

/-! ### Pieces between separators -/

theorem splitOn_ne_nil (sep : Char) (xs : List Char) : splitOn sep xs ≠ [] := by
  cases xs with
  | nil => simp [splitOn]
  | cons x xs =>
    rw [splitOn]
    split
    · simp
    · split <;> simp

theorem splitOn_cons_self (sep : Char) (xs : List Char) : splitOn sep (sep :: xs) = [] :: splitOn sep xs := by
  rw [splitOn]
  cases h : splitOn sep xs with
  | nil => exact absurd h (splitOn_ne_nil sep xs)
  | cons piece pieces => simp

theorem splitOn_cons_of_ne {sep ch : Char} (hne : ch ≠ sep) {xs piece : List Char} {pieces : List (List Char)}
    (h : splitOn sep xs = piece :: pieces) : splitOn sep (ch :: xs) = (ch :: piece) :: pieces := by
  rw [splitOn, h]
  simp [hne]

theorem splitOn_of_not_mem {sep : Char} {xs : List Char} (h : sep ∉ xs) : splitOn sep xs = [xs] := by
  induction xs with
  | nil => rfl
  | cons x xs ih =>
    obtain ⟨hne, hxs⟩ := not_or.1 (mt List.mem_cons.2 h)
    exact splitOn_cons_of_ne (Ne.symm hne) (ih hxs)

theorem splitOn_append {sep : Char} {xs : List Char} (h : sep ∉ xs) (ys : List Char) :
    splitOn sep (xs ++ sep :: ys) = xs :: splitOn sep ys := by
  induction xs with
  | nil => exact splitOn_cons_self sep ys
  | cons x xs ih =>
    obtain ⟨hne, hxs⟩ := not_or.1 (mt List.mem_cons.2 h)
    exact splitOn_cons_of_ne (Ne.symm hne) (ih hxs)

/-! ### Operands -/

theorem operandsText_cons_cons (v w : Nat) (vs : List Nat) :
    operandsText (v :: w :: vs) = numberText v ++ ',' :: operandsText (w :: vs) := rfl

theorem mem_operandsText {vs : List Nat} {ch : Char} (h : ch ∈ operandsText vs) : ch ∈ ',' :: numberChars := by
  induction vs with
  | nil => cases h
  | cons v vs ih =>
    cases vs with
    | nil => exact List.mem_cons_of_mem _ (mem_numberText h)
    | cons w vs =>
      rw [operandsText_cons_cons] at h
      rcases List.mem_append.1 h with h | h
      · exact List.mem_cons_of_mem _ (mem_numberText h)
      · rcases List.mem_cons.1 h with rfl | h
        · exact List.mem_cons_self
        · exact ih h

theorem comma_not_mem_numberText (v : Nat) : ',' ∉ numberText v := fun h =>
  absurd (mem_numberText h) (by decide)

theorem splitOn_operandsText (v : Nat) (vs : List Nat) :
    splitOn ',' (operandsText (v :: vs)) = (v :: vs).map numberText := by
  induction vs generalizing v with
  | nil => exact splitOn_of_not_mem (comma_not_mem_numberText v)
  | cons w vs ih =>
    rw [operandsText_cons_cons, splitOn_append (comma_not_mem_numberText v), ih, List.map_cons (l := w :: vs)]

theorem readNumbers_map_numberText {vs : List Nat} (h : ∀ v ∈ vs, v < 2 ^ 64) :
    readNumbers (vs.map numberText) = some vs := by
  induction vs with
  | nil => rfl
  | cons v vs ih =>
    obtain ⟨hv, hvs⟩ := List.forall_mem_cons.1 h
    rw [List.map_cons, readNumbers, readNumber_numberText hv, ih hvs]

/-! ### Invocations -/

theorem operands_lt {i : Instr} (h : wellFormed i = true) : ∀ v ∈ operands i, v < 2 ^ 64 := by
  have w32 (v : Word) : v.toNat < 2 ^ 64 := by omega
  cases i <;> simp_all [wellFormed, operands, -Nat.reducePow]

theorem operands_ne_nil (i : Instr) : operands i ≠ [] := by cases i <;> simp [operands]

theorem not_mem_mnemonicText (i : Instr) : '(' ∉ mnemonicText i ∧ ' ' ∉ mnemonicText i := by
  cases i with
  | queryCPUID => exact (by decide : '(' ∉ "queryCPUID".toList ∧ ' ' ∉ "queryCPUID".toList)
  | xor2 => exact (by decide : '(' ∉ "xor2".toList ∧ ' ' ∉ "xor2".toList)
  | xor3 => exact (by decide : '(' ∉ "xor3".toList ∧ ' ' ∉ "xor3".toList)
  | xor4 => exact (by decide : '(' ∉ "xor4".toList ∧ ' ' ∉ "xor4".toList)
  | aes4 => exact (by decide : '(' ∉ "aes4".toList ∧ ' ' ∉ "aes4".toList)
  | aes10 => exact (by decide : '(' ∉ "aes10".toList ∧ ' ' ∉ "aes10".toList)

theorem invocationOf_two (name : List Char) (v w : Nat) : invocationOf name [v, w] =
    (if name = "queryCPUID".toList then
      if v < 2 ^ 32 && w < 2 ^ 32 then some (.queryCPUID (BitVec.ofNat 32 v) (BitVec.ofNat 32 w)) else none
    else if name = "aes4".toList then some (.aes4 v w)
    else if name = "aes10".toList then some (.aes10 v w)
    else none).filter wellFormed := rfl

theorem invocationOf_xor2 (a b dst : Nat) :
    invocationOf "xor2".toList [a, b, dst] = (some (.xor2 a b dst)).filter wellFormed := rfl

theorem invocationOf_xor3 (a b c dst : Nat) :
    invocationOf "xor3".toList [a, b, c, dst] = (some (.xor3 a b c dst)).filter wellFormed := rfl

theorem invocationOf_xor4 (a b c d dst : Nat) :
    invocationOf "xor4".toList [a, b, c, d, dst] = (some (.xor4 a b c d dst)).filter wellFormed := rfl

theorem invocationOf_queryCPUID (leaf subleaf : Word) :
    invocationOf "queryCPUID".toList [leaf.toNat, subleaf.toNat] =
      (some (.queryCPUID leaf subleaf)).filter wellFormed := by
  have hwords : (decide (leaf.toNat < 2 ^ 32) && decide (subleaf.toNat < 2 ^ 32)) = true := by
    rw [decide_eq_true leaf.isLt, decide_eq_true subleaf.isLt]
    rfl
  have word (v : Word) : BitVec.ofNat 32 v.toNat = v := by rw [BitVec.ofNat_toNat, BitVec.setWidth_eq]
  rw [invocationOf_two, if_pos rfl, if_pos hwords, word, word]

theorem invocationOf_aes4 (st key : Nat) :
    invocationOf "aes4".toList [st, key] = (some (.aes4 st key)).filter wellFormed := by
  rw [invocationOf_two, if_neg (by decide), if_pos rfl]

theorem invocationOf_aes10 (st key : Nat) :
    invocationOf "aes10".toList [st, key] = (some (.aes10 st key)).filter wellFormed := by
  rw [invocationOf_two, if_neg (by decide), if_neg (by decide), if_pos rfl]

theorem invocationOf_mnemonicText {i : Instr} (h : wellFormed i = true) :
    invocationOf (mnemonicText i) (operands i) = some i := by
  have keep : (some i).filter wellFormed = some i := Option.filter_eq_some_iff.2 ⟨rfl, h⟩
  cases i with
  | queryCPUID leaf subleaf => exact (invocationOf_queryCPUID leaf subleaf).trans keep
  | xor2 a b dst => exact (invocationOf_xor2 a b dst).trans keep
  | xor3 a b c dst => exact (invocationOf_xor3 a b c dst).trans keep
  | xor4 a b c d dst => exact (invocationOf_xor4 a b c d dst).trans keep
  | aes4 st key => exact (invocationOf_aes4 st key).trans keep
  | aes10 st key => exact (invocationOf_aes10 st key).trans keep

/-- A text of mnemonic, parenthesis, operands and parenthesis, none of which holds a blank or a further opening
parenthesis, is read piece by piece. -/
theorem readInvocation_invocationText (i : Instr) :
    readInvocation (invocationText i) =
      (readNumbers (splitOn ',' (operandsText (operands i)))).bind (invocationOf (mnemonicText i)) := by
  obtain ⟨hopen, hblank⟩ := not_mem_mnemonicText i
  have hclosed (ch : Char) (h : ch ∉ ',' :: numberChars) (hc : ch ≠ ')') : ch ∉ operandsText (operands i) ++ [')'] :=
    fun hm => (List.mem_append.1 hm).elim (fun hm => h (mem_operandsText hm)) fun hm => hc (List.mem_singleton.1 hm)
  have hplain : ∀ ch ∈ mnemonicText i ++ '(' :: (operandsText (operands i) ++ [')']), (ch != ' ') = true := by
    intro ch hm
    rw [bne_iff_ne]
    rintro rfl
    rcases List.mem_append.1 hm with hm | hm
    · exact hblank hm
    · exact hclosed ' ' (by decide) (by decide) ((List.mem_cons.1 hm).resolve_left (by decide))
  have htext : invocationText i = mnemonicText i ++ '(' :: (operandsText (operands i) ++ [')']) :=
    List.append_assoc _ _ _
  rw [readInvocation, htext, List.filter_eq_self.2 hplain, splitOn_append hopen,
    splitOn_of_not_mem (hclosed '(' (by decide) (by decide))]
  simp only [List.reverse_append, List.reverse_singleton, List.singleton_append, List.reverse_reverse]
  cases readNumbers (splitOn ',' (operandsText (operands i))) <;> rfl

/-- Settles O6. -/
theorem textNamesItsInvocation : Obligations.TextNamesItsInvocation := by
  intro i h
  obtain ⟨v, vs, hvs⟩ := List.exists_cons_of_ne_nil (operands_ne_nil i)
  rw [readInvocation_invocationText, hvs, splitOn_operandsText, ← hvs, readNumbers_map_numberText (operands_lt h)]
  exact invocationOf_mnemonicText h

end Sys2Proof.Machine
end
